-- ==== Sys2Proof/Word.lean ====
section
/-! DEFINITION. The bit-vector widths of the VarInt codec block (00_scope.md R4, R6). -/

namespace Sys2Proof

/-- A 32-bit unsigned value, `VALUE_W` bits (R4). -/
abbrev Word := BitVec 32

/-- One byte: 7 payload bits and 1 continuation bit, `BYTE_W` bits (R4, R60). -/
abbrev Byte := BitVec 8

/-- The payload of one VarInt byte, `GROUP_W` bits (R4, R60). -/
abbrev Payload := BitVec 7

/-- A 3-bit count or group index: `enc_n`, `enc_i`, `dec_group`, `count`, `out_len`, `consumed`
(R22, R23, R70). -/
abbrev Count := BitVec 3

/-- A 2-bit code: the command word `op` (R67) or a status or cause code (R70, R150). -/
abbrev Code := BitVec 2

/-- The Encoder's operand port, a two's-complement integer of `ENC_IN_W` = 64 bits (R4, R68). -/
abbrev EncOperand := BitVec 64

/-- The output of the Decoder's barrel shifter, 35 bits (R122). -/
abbrev Shifted := BitVec 35

end Sys2Proof
end

