-- ==== Sys2Proof/Config.lean ====
section
/-! DEFINITION. The parameters of the block that are not widths of a type of Word.lean (00_scope.md R4).
The spec leaves no value of a result open, so there is no free value here. -/

namespace Sys2Proof.Config

/-- `MAX_GROUPS`: the largest number of bytes in one VarInt (R4, R62). -/
def maxGroups : Nat := 5

/-- `LUT_ENTRIES`: the number of entries of the bit-length table (R4, R83). -/
def lutEntries : Nat := 32

/-- The width R4 suggests for `ADDR_W`, which it leaves OPEN. DESIGN CHOICE, log entry 2 (safe): no
definition of the machine uses it; offsets and lengths are natural numbers, and a statement about an
instance of width `w` takes `w` as an argument. -/
def suggestedAddrW : Nat := 32

end Sys2Proof.Config
end

