-- ==== Sys2Proof/Syntax.lean ====
section
/-! DEFINITION. The commands of the block: one constructor per row of spec/opcode_table.json
(30_encoding.md R67, R69). No command has an operand field (R68): operands are ports, held in State. -/

namespace Sys2Proof

/-- What a command word spells. -/
inductive Instr where
  /-- `op = 0b00`, the BitLengthEstimator's operation (R84). -/
  | bytecount
  /-- `op = 0b01`, the Encoder's operation (R104). -/
  | encode
  /-- `op = 0b10`, the Decoder's operation (R126). -/
  | decode
  /-- `op = 0b11`, the reserved code, which spells no operation (R69). -/
  | reserved3
  deriving DecidableEq, Repr

end Sys2Proof
end

