-- ==== Sys2Proof/WellFormed.lean ====
section
/-! DEFINITION. Which command words spell an operation (30_encoding.md R69, R72). A command has no
fields, so this is the only check there is on the syntax; what a host must respect when it presents
operands is `HostMove.wf` in Sys2Proof/Safety.lean. -/

namespace Sys2Proof

/-- The three operations are well formed; the reserved code "spells no operation" (R69). -/
def Instr.wf : Instr → Bool
  | .bytecount => true
  | .encode => true
  | .decode => true
  | .reserved3 => false

end Sys2Proof
end

