-- ==== Sys2Proof/Decode.lean ====
section
/-! DEFINITION. Decoding and encoding of the command word `op[1:0]` (30_encoding.md R67, R69;
spec/opcode_table.json). -/

namespace Sys2Proof

/-- Why a sequence of bytes holds no command word. -/
inductive DecodeError where
  /-- There is no byte, so no command word was presented. Safe: nothing runs. -/
  | noCommandWord
  deriving DecidableEq, Repr

/-- The operation code table of R67: every one of the four values has a row (R72). -/
def decodeOp (op : Code) : Instr :=
  match op.toNat with
  | 0 => .bytecount
  | 1 => .encode
  | 2 => .decode
  | _ => .reserved3

/-- The command word is the low two bits of the byte that carries it (the table's mask 0x3). Bits 7 to
2 of that byte are no part of the command: the port has two wires (R67). DESIGN CHOICE, log entry 3. -/
def commandOfByte (b : Byte) : Code := b.extractLsb' 0 2

/-- Decode a command from bytes, with the bytes after it. There is one format and one length (R67). -/
def decodeBytes : List Byte → Except DecodeError (Instr × List Byte)
  | [] => .error .noCommandWord
  | b :: rest => .ok (decodeOp (commandOfByte b), rest)

/-- The operation code of each row of spec/opcode_table.json (R67). -/
def encodeOp : Instr → Code
  | .bytecount => 0b00#2
  | .encode => 0b01#2
  | .decode => 0b10#2
  | .reserved3 => 0b11#2

/-- A command as the one byte that carries its command word, the unused bits 0. -/
def encode (i : Instr) : List Byte := [(encodeOp i).setWidth 8]

/-- A table word of `nbits` bits laid out in bytes, bits 7 to 0 first. -/
def tableWordBytes (nbits w : Nat) : List Byte :=
  (List.range ((nbits + 7) / 8)).map fun k => BitVec.ofNat 8 ((w % 2 ^ nbits) / 2 ^ (8 * k))

/-- The instruction the decoder reads from a word numbered as spec/opcode_table.json numbers it. -/
def decodeTableWord (nbits w : Nat) : Option Instr :=
  match decodeBytes (tableWordBytes nbits w) with
  | .ok (i, _) => some i
  | .error _ => none

end Sys2Proof
end

