-- ==== Sys2Proof/Machine/State.lean ====
section
/-! DEFINITION. The state of one block with its command, operand and result ports, and of the host that
drives it (10_state.md; 30_encoding.md R67, R68, R70; 70_reset_and_hazards.md R177). -/

namespace Sys2Proof.Machine

/-- The three units of the block (R1). -/
inductive UnitName where
  | bitLength
  | encoder
  | decoder
  deriving DecidableEq, Repr

/-- Why the machine stops with a fault. -/
inductive Fault where
  /-- Raised by a DECODE group step (R129) that passes its bounds test and finds no byte at that index:
  the host announced `dec_len` bytes and supplied fewer, against R41. Safe: the machine stops where the
  spec gives no value, and `MemRead` never invents one (R157, U2). Log entry 5. -/
  | ibufByteNotSupplied
  deriving DecidableEq, Repr

/-- Why the block takes no step. A refusal ends the model's run (DESIGN CHOICE, log entry 12). -/
inductive Refusal where
  /-- An arm of exec whose instruction has no meaning yet. Safe. No arm answers it. -/
  | notModelled (mnemonic : String)
  /-- Raised by `op = 0b11`, which the spec says a model refuses (R69, R165). Safe. -/
  | reservedOp
  /-- Raised by a `start` whose addressed unit is `Busy` or `Reading(i)` (R165, R174). Safe. -/
  | startWhileBusy (u : UnitName)
  /-- Raised by a `start` of the unit named while another unit of the instance is in flight: one operation
  runs at a time within one instance (R51, R163, R174, R177). Safe. Log entry 9. -/
  | startWhileInstanceBusy (u : UnitName)
  /-- Raised by a host that drives new `dec_off`, `dec_len` or IBUF while a DECODE reads (R41, R174
  duty (b), U8): the spec gives the block no behaviour there. Safe. Log entry 8. -/
  | ibufChangedDuringDecode
  deriving DecidableEq, Repr

/-- The three error causes (R150). -/
inductive Cause where
  | invalidInput
  | truncated
  | overflow
  deriving DecidableEq, Repr

/-- `enc_phase` (R22, R25). -/
inductive EncPhase where
  | idle
  | busy
  | done
  | failed
  deriving DecidableEq, Repr

/-- `dec_phase`: the source's states `ReadingGroup(0..4)`, `Done`, `Failed`, and `Idle` (R23, R127). -/
inductive DecPhase where
  | idle
  | reading (i : Fin 5)
  | done
  | failed
  deriving DecidableEq, Repr

/-- The one error of ENCODE (R9). -/
inductive EncError where
  | invalidInput
  deriving DecidableEq, Repr

/-- The two errors of DECODE (R9). -/
inductive DecError where
  | truncated
  | overflow
  deriving DecidableEq, Repr

/-- `ResultENC`: a failing ENCODE has no bytes to read (R9). -/
inductive ResultENC where
  | ok (bytes : List Byte)
  | err (e : EncError)
  deriving DecidableEq, Repr

/-- `ResultDEC`: a failing DECODE has no value to read (R9). -/
inductive ResultDEC where
  | ok (value : Word) (consumed : Count)
  | err (e : DecError)
  deriving DecidableEq, Repr

/-- A byte space addressed by a natural-number index (R40): a list of index and byte, the indices
strictly rising. An unlisted index holds no byte (log entries 5 and 6). -/
abbrev Memory := List Host.Cell

/-- One move of the host (R177). A read of a result is no move: it "has no effect on the block", and
the ports it reads are the views of Machine/Flags.lean. -/
inductive HostMove where
  /-- Drive the operand port `ble_in` (R68). -/
  | driveBle (v : Word)
  /-- Drive the operand port `enc_in` (R68). -/
  | driveEnc (x : EncOperand)
  /-- Drive `dec_off` and `dec_len` and supply IBUF (R41, R68). -/
  | driveDec (off len : Nat) (buf : Memory)
  /-- The `start` event with the command word `op[1:0]` (R67). -/
  | start (op : Code)
  /-- Leave the Encoder one group step (R106), if it is `Busy`. -/
  | grantEnc
  /-- Leave the Decoder one group step (R129), if it is `Reading(i)`. -/
  | grantDec
  /-- Wait until no unit of the block has a group step left (R176). -/
  | await
  /-- Reset, which "may be applied at any time" (R170). -/
  | reset
  deriving DecidableEq, Repr

/-- The Encoder's working registers and its output buffer (R22). -/
structure EncRegs where
  /-- `enc_val`, 32 bits -/
  val : Word
  /-- `enc_n`, 3 bits -/
  n : Count
  /-- `enc_i`, 3 bits -/
  i : Count
  /-- `OBUF`: the bytes written so far -/
  obuf : Memory
  /-- `enc_phase` -/
  phase : EncPhase
  /-- `enc_cause`, 2 bits -/
  cause : Code
  deriving DecidableEq, Repr

/-- The Decoder's working registers (R23). -/
structure DecRegs where
  /-- `dec_acc`, 32 bits -/
  acc : Word
  /-- `dec_group`, 3 bits -/
  group : Count
  /-- `dec_off`, the operand latched at start, `ADDR_W` bits (log entry 2) -/
  off : Nat
  /-- `dec_len`, the length latched at start, `ADDR_W` bits (log entry 2) -/
  len : Nat
  /-- `dec_phase` -/
  phase : DecPhase
  /-- `dec_cause`, 2 bits -/
  cause : Code
  deriving DecidableEq, Repr

/-- The BitLengthEstimator's result port. The unit has no working register, no phase and no cause (R25).
That the port holds its count is a DESIGN CHOICE (log entry 11). -/
structure BleOut where
  /-- the port `count`, 3 bits (R70) -/
  count : Count
  /-- whether a BYTECOUNT was started since reset: from then on `count` is meaningful (R70) -/
  started : Bool
  deriving DecidableEq, Repr

/-- The operand ports, sampled at the `start` event that uses them, and the Decoder's input buffer
(R26, R41, R68). The spec makes the operands and IBUF parameters of a call, supplied with its `start`
(R10, R31, R177). Here a port keeps what the host last drove, from call to call and over a reset, until
the host drives it anew, and a `start` with no new drive uses it again. DESIGN CHOICE, log entry 18. -/
structure Ports where
  /-- `ble_in`, 32 bits -/
  bleIn : Word
  /-- `enc_in`, `ENC_IN_W` bits -/
  encIn : EncOperand
  /-- `dec_off` operand, `ADDR_W` bits (log entry 2) -/
  decOffIn : Nat
  /-- `dec_len` operand, `ADDR_W` bits (log entry 2) -/
  decLenIn : Nat
  /-- `IBUF` -/
  ibuf : Memory
  deriving DecidableEq, Repr

/-- One block, its ports, and the moves its host has still to make, the next one first (DESIGN CHOICE, log
entry 7). -/
structure State where
  ble : BleOut
  enc : EncRegs
  dec : DecRegs
  ports : Ports
  /-- the host's moves to come: its program (R177) -/
  inputs : List HostMove
  deriving DecidableEq, Repr

/-- The Encoder after reset: `Idle` (R32). Every other register is unspecified there; the zeros are
the model's (DESIGN CHOICE, log entry 1, unsafe). -/
def EncRegs.reset : EncRegs where
  val := 0#32
  n := 0#3
  i := 0#3
  obuf := []
  phase := .idle
  cause := 0#2

/-- The Decoder after reset: `Idle` (R32). The zeros are the model's (DESIGN CHOICE, log entry 1, unsafe). -/
def DecRegs.reset : DecRegs where
  acc := 0#32
  group := 0#3
  off := 0
  len := 0
  phase := .idle
  cause := 0#2

/-- The BitLengthEstimator's port after reset: nothing was started. The zero is the model's
(DESIGN CHOICE, log entry 1, unsafe). -/
def BleOut.reset : BleOut where
  count := 0#3
  started := false

/-- The ports before the host has driven any: an empty IBUF and zeros (DESIGN CHOICE, log entry 1, unsafe). -/
def Ports.reset : Ports where
  bleIn := 0#32
  encIn := 0#64
  decOffIn := 0
  decLenIn := 0
  ibuf := []

/-- The machine right after reset (R32, R170, R171): both phases `Idle`, no operation in flight, and
the block waiting for the host's first move. -/
def State.reset : State where
  ble := .reset
  enc := .reset
  dec := .reset
  ports := .reset
  inputs := []

end Sys2Proof.Machine
end

