-- ==== Sys2Proof/Machine/Ops.lean ====
section
/-! DEFINITION. The named operations over memory and registers: `MemRead`, `MemWrite` (00_scope.md R8,
20_memory.md R41, R42), the field updates of State, and error entry (60_exceptions.md R158). -/

namespace Sys2Proof.Machine

/-- The canonical form of a byte space: indices strictly rising, so no index twice. -/
abbrev Memory.wf (m : Memory) : Prop := m.Pairwise fun x y => x.1 < y.1

/-- `MemRead(addr, 1)` (R8, R41): partial, so that a read outside the bytes supplied gives no value (U2). -/
def memRead : Memory → Nat → Option Byte
  | [], _ => none
  | (a', b) :: m, a => if a = a' then some b else memRead m a

/-- `MemWrite(i, 1, b)` (R8, R42): all eight bits at once, every other index as before. -/
def memWrite : Memory → Nat → Byte → Memory
  | [], a, b => [(a, b)]
  | (a', b') :: m, a, b =>
    if a < a' then (a, b) :: (a', b') :: m
    else if a = a' then (a, b) :: m
    else (a', b') :: memWrite m a b

/-- The byte space that holds `bytes` at the indices from `k` on. -/
def memOfBytesFrom : Nat → List Byte → Memory
  | _, [] => []
  | k, b :: bs => (k, b) :: memOfBytesFrom (k + 1) bs

/-- The byte space of a sequence of bytes, the first at index 0 (R41, R42). -/
def memOfBytes (bytes : List Byte) : Memory := memOfBytesFrom 0 bytes

/-- Every index below `len` holds a byte: IBUF is "a sequence of `dec_len` bytes" (R41). -/
abbrev memSupplied (m : Memory) (len : Nat) : Prop := ∀ a < len, (memRead m a).isSome = true

/-- The bytes at indices 0 to `n - 1`, in order. -/
def memBytes (m : Memory) (n : Nat) : List Byte := (List.range n).filterMap (memRead m)

def State.setBle (s : State) (b : BleOut) : State := { s with ble := b }

def State.setEnc (s : State) (e : EncRegs) : State := { s with enc := e }

def State.setDec (s : State) (d : DecRegs) : State := { s with dec := d }

def State.setPorts (s : State) (p : Ports) : State := { s with ports := p }

def State.setInputs (s : State) (l : List HostMove) : State := { s with inputs := l }

/-- The codes of R150: 1 InvalidInput, 2 Truncated, 3 Overflow. -/
def Cause.code : Cause → Code
  | .invalidInput => 1#2
  | .truncated => 2#2
  | .overflow => 3#2

/-- `raise <Cause>` (R8, R158), the one error entry of the block: "the unit's phase becomes `Failed` and
its cause register takes the code", and nothing else changes. The unit is the one that can raise that
cause (R154). There is no operation that returns from it (R159): the next `start` does. -/
def State.raise (s : State) (c : Cause) : State :=
  match c with
  | .invalidInput => s.setEnc { s.enc with phase := .failed, cause := c.code }
  | .truncated => s.setDec { s.dec with phase := .failed, cause := c.code }
  | .overflow => s.setDec { s.dec with phase := .failed, cause := c.code }

/-- Reset (R170): both phases go to `Idle` and an operation in flight is abandoned without a result
(U14). The other registers take the values State.reset names (log entry 1). The operand ports and the
host's later moves are the host's and stay (log entry 18). -/
def resetUnits (s : State) : State :=
  ((s.setBle .reset).setEnc .reset).setDec .reset

end Sys2Proof.Machine
end

