-- ==== Sys2Proof/Machine/Flags.lean ====
section
/-! DEFINITION. The block's only flags, phase and cause, as the host sees them: the result ports, each
`none` while the spec says it carries nothing (10_state.md R25; 30_encoding.md R70). -/

namespace Sys2Proof.Machine

/-- The Encoder is `Busy`: an ENCODE is in flight. -/
def State.encBusy (s : State) : Bool := s.enc.phase == .busy

/-- The Decoder is `Reading(i)` for some `i`: a DECODE is in flight. -/
def State.decReading (s : State) : Bool :=
  match s.dec.phase with
  | .reading _ => true
  | .idle => false
  | .done => false
  | .failed => false

/-- A unit of the block is `Busy` or `Reading(i)` (R176). -/
def State.anyBusy (s : State) : Bool := s.encBusy || s.decReading

/-- Whether the addressed unit is `Busy` or `Reading(i)` (R165). The BitLengthEstimator completes in the
step that starts it and never is (R25). -/
def State.inFlight (s : State) : UnitName → Bool
  | .bitLength => false
  | .encoder => s.encBusy
  | .decoder => s.decReading

/-- Why a `start` of unit `u` is refused, if it is: the unit itself is in flight (R165, R174 duty (a)), or
another one of the instance is, since "within one instance, one operation runs at a time" (R51, R163,
R177; DEDUCED, log entry 9). -/
def State.startRefusal (s : State) (u : UnitName) : Option Refusal :=
  if s.inFlight u then some (.startWhileBusy u)
  else if s.anyBusy then some (.startWhileInstanceBusy u)
  else none

/-- A `start` of unit `u` whose effect is the state `t`: it takes effect unless it is refused, and a
refused one takes no step (R165). -/
def startUnit (s : State) (u : UnitName) (t : State) : Host.Outcome State Fault Refusal :=
  match s.startRefusal u with
  | some r => .refused r
  | none => .next t

/-- `status` is read per unit and is no register (DEDUCED, log entry 14). Read for an ENCODE it is
0 in `Done`, the cause in `Failed`, and meaningless otherwise (R70). -/
def encStatus (s : State) : Option Code :=
  match s.enc.phase with
  | .done => some 0#2
  | .failed => some s.enc.cause
  | .idle => none
  | .busy => none

/-- `status` read for a DECODE (R70, R130). -/
def decStatus (s : State) : Option Code :=
  match s.dec.phase with
  | .done => some 0#2
  | .failed => some s.dec.cause
  | .idle => none
  | .reading _ => none

/-- `status` read for a BYTECOUNT: the constant 0 (R25, R70). -/
def bleStatus (_s : State) : Code := 0#2

/-- `out_len`: `enc_n`, with status 0 only (R70, R107). -/
def outLen (s : State) : Option Count := if s.enc.phase = .done then some s.enc.n else none

/-- Lane `k` of the OBUF port: it exists with status 0 and for `k < out_len` only (R42, R70). -/
def obufLane (s : State) (k : Nat) : Option Byte :=
  if s.enc.phase = .done ∧ k < s.enc.n.toNat then memRead s.enc.obuf k else none

/-- `value`: `dec_acc`, with status 0 only (R70, R130). -/
def valuePort (s : State) : Option Word := if s.dec.phase = .done then some s.dec.acc else none

/-- `consumed`: `dec_group + 1`, with status 0 only (R70, R130). -/
def consumedPort (s : State) : Option Count :=
  if s.dec.phase = .done then some (s.dec.group + 1#3) else none

/-- `ResultBC` as the host reads it: the port `count`, from the first BYTECOUNT start on (R9, R70). -/
def bcResult (s : State) : Option Count := if s.ble.started then some s.ble.count else none

/-- `ResultENC` as the host reads it (R9, R107, R151). -/
def encResult (s : State) : Option ResultENC :=
  match s.enc.phase with
  | .done => some (.ok (memBytes s.enc.obuf s.enc.n.toNat))
  | .failed => if s.enc.cause = Cause.invalidInput.code then some (.err .invalidInput) else none
  | .idle => none
  | .busy => none

/-- `ResultDEC` as the host reads it (R9, R130). -/
def decResult (s : State) : Option ResultDEC :=
  match s.dec.phase with
  | .done => some (.ok s.dec.acc (s.dec.group + 1#3))
  | .failed =>
    if s.dec.cause = Cause.truncated.code then some (.err .truncated)
    else if s.dec.cause = Cause.overflow.code then some (.err .overflow)
    else none
  | .idle => none
  | .reading _ => none

end Sys2Proof.Machine
end

