-- ==== Sys2Proof/Machine/Operands.lean ====
section
/-! DEFINITION. The operand forms of the block (30_encoding.md R68, R71): each operand is a port, sampled
at the `start` event, and the only operand decoding is the Encoder's split of `enc_in` and the Decoder's
split of each input byte. -/

namespace Sys2Proof.Machine

/-- `RANGECHK(x)` (R100): the bits from 32 up are all zero. The width is an argument because any
`ENC_IN_W` of 34 or more is allowed (R4, U11). -/
def rangechk {w : Nat} (x : BitVec w) : Bool := x >>> 32 == 0#w

/-- The value part `enc_in[31:0]` (R71). -/
def encValuePart (x : EncOperand) : Word := x.extractLsb' 0 32

/-- `BOUNDS(off, g, len)` (R120): the read index, "as a natural number without wrap" (R49), and whether
it lies in the buffer. -/
def bounds (off g len : Nat) : Nat × Bool := (off + g, decide (off + g < len))

/-- `CONTSCAN(b)` (R121): the continuation bit `b[7]` and the payload `b[6:0]`. -/
def contscan (b : Byte) : Bool × Payload := (b.getLsbD 7, b.extractLsb' 0 7)

end Sys2Proof.Machine
end

