-- ==== Sys2Proof/Machine/Decoder.lean ====
section
/-! DEFINITION. The Decoder: DSHIFT, ACC, OVFDET, GRPLIM, DECODE at transaction level and its group-step
machine (42_decoder.md). BOUNDS and CONTSCAN are in Machine/Operands.lean. -/

namespace Sys2Proof.Machine

/-- `DSHIFT(p, g) = zext_35(p) << (7 * g)` (R122). -/
def dshift (p : Payload) (g : Nat) : Shifted := p.setWidth 35 <<< (7 * g)

/-- `ACC(acc, sh) = acc | sh[31:0]` (R123). -/
def accUpdate (acc : Word) (sh : Shifted) : Word := acc ||| sh.extractLsb' 0 32

/-- `OVFDET(p, g)`: at group 4, some payload bit 6, 5 or 4 is set (R124). -/
def ovfdet (p : Payload) (g : Nat) : Bool := g == 4 && p.extractLsb' 4 3 != 0#3

/-- `GRPLIM(c, g)`: a sixth group would be needed (R125). -/
def grplim (c : Bool) (g : Nat) : Bool := c && g == 4

/-- The loop of R126 with `k` iterations left, over a buffer that is a sequence of bytes (`dec_len` is
its length, R41): `buf[idx]?` is `none` exactly when the bounds test fails. With no iteration left the
group index would exceed 4, which R125 calls Overflow. -/
def decodeLoop (buf : List Byte) (off : Nat) : Nat → Nat → Word → ResultDEC
  | 0, _, _ => .err .overflow
  | k + 1, g, acc =>
    match buf[(bounds off g buf.length).1]? with
    | none => .err .truncated
    | some b =>
      let c := (contscan b).1
      let p := (contscan b).2
      let acc' := accUpdate acc (dshift p g)
      if ovfdet p g then .err .overflow
      else if !c then .ok acc' (BitVec.ofNat 3 (g + 1))
      else if grplim c g then .err .overflow
      else decodeLoop buf off k (g + 1) acc'

/-- `DECODE(IBUF, off, len)` at transaction level (R126), with the default offset 0 (R74). -/
def decodeTx (buf : List Byte) (off : Nat := 0) : ResultDEC :=
  decodeLoop buf off Config.maxGroups 0 0#32

/-- The DECODE start step (R128): it latches the operands, reads no byte and cannot fail. -/
def decStart (s : State) : State :=
  s.setDec { s.dec with
    off := s.ports.decOffIn
    len := s.ports.decLenIn
    acc := 0#32
    group := 0#3
    phase := .reading 0 }

/-- DECODE as a command: its start step (R128), refused while the Decoder is `Reading(i)` (R165, R174).
The group steps follow, one a step (R129; DEDUCED, log entry 4). An ENCODE in flight stands in the way as well
(R51, log entry 9). -/
def execDecode (s : State) : Host.Outcome State Fault Refusal := startUnit s .decoder (decStart s)

/-- Outcomes 2 to 5 of the step `Reading(i)` (R129), once the byte `b` of group `i` is read: the
accumulator first (DESIGN CHOICE on Overflow, log entry 10), then upper payload bits, continuation bit
and group limit, in that order (R156). -/
def decTakeByte (s : State) (i : Fin 5) (b : Byte) : State :=
  let c := (contscan b).1
  let p := (contscan b).2
  let t := s.setDec { s.dec with acc := accUpdate s.dec.acc (dshift p i) }
  if ovfdet p i then t.raise .overflow
  else if !c then t.setDec { t.dec with phase := .done }
  else if grplim c i then t.raise .overflow
  else t.setDec { t.dec with group := BitVec.ofNat 3 (i.val + 1), phase := .reading (i + 1) }

/-- The IBUF index the next DECODE group step reads: none when the bounds test fails (R47, R120) or no
DECODE is in flight. -/
def decReadIndex (s : State) : Option Nat :=
  match s.dec.phase with
  | .reading i =>
    if (bounds s.dec.off i s.dec.len).2 then some (bounds s.dec.off i s.dec.len).1 else none
  | .idle => none
  | .done => none
  | .failed => none

/-- One DECODE group step (R129): Truncated with no read when the bounds test fails, otherwise the one
byte is read and taken. Nothing happens unless the Decoder is `Reading(i)`. -/
def decGroupStep (s : State) : Host.Outcome State Fault Refusal :=
  match s.dec.phase with
  | .reading i =>
    match decReadIndex s with
    | none => .next (s.raise .truncated)
    | some idx =>
      match memRead s.ports.ibuf idx with
      | none => .fault .ibufByteNotSupplied
      | some b => .next (decTakeByte s i b)
  | .idle => .next s
  | .done => .next s
  | .failed => .next s

end Sys2Proof.Machine
end

