-- ==== Sys2Proof/Machine/BitLength.lean ====
section
/-! DEFINITION. The BitLengthEstimator: CLZ32, OR1, BITLEN, GROUPLUT and BYTECOUNT (40_bitlength.md). -/

namespace Sys2Proof.Machine

/-- The largest index `m ≤ k` with `x[m] = 1`, 0 if there is none. -/
def topBit (x : Word) : Nat → Nat
  | 0 => 0
  | k + 1 => if x.getLsbD (k + 1) then k + 1 else topBit x k

/-- `CLZ32(x)` (R80), on nonzero inputs only: the source calls 0 "the undefined/zero case", so a caller
shows that its input is not 0 (D20, U1). -/
def clz32 (x : Word) (_nonzero : x ≠ 0#32) : Nat := 31 - topBit x 31

/-- `OR1(v)`, the zero guard (R81). -/
def or1 (v : Word) : Word := v ||| 1#32

/-- The guard's output "is never 0, so it is always in the domain of `CLZ32`" (R81). -/
theorem or1_ne_zero (v : Word) : or1 v ≠ 0#32 := by
  intro h
  have h0 : (or1 v).getLsbD 0 = true := by simp [or1]
  rw [h] at h0
  exact absurd h0 (by decide)

/-- `BITLEN(v) = 32 - CLZ32(OR1(v))` (R82). -/
def bitlen (v : Word) : Nat := 32 - clz32 (or1 v) (or1_ne_zero v)

/-- The stored table of R83, entry `b - 1` for bit-length `b`. -/
def groupLutTable : List Count :=
  [1, 1, 1, 1, 1, 1, 1] ++ [2, 2, 2, 2, 2, 2, 2] ++ [3, 3, 3, 3, 3, 3, 3] ++
    [4, 4, 4, 4, 4, 4, 4] ++ [5, 5, 5, 5]

theorem groupLutTable_length : groupLutTable.length = Config.lutEntries := by decide

/-- `GROUPLUT[b]` (R83): the table has an entry for `b` from 1 to 32 and no other. -/
def grouplut (b : Nat) (h : 1 ≤ b ∧ b ≤ Config.lutEntries) : Count :=
  groupLutTable[b - 1]'(by rw [groupLutTable_length]; omega)

/-- "`BITLEN` never produces" a bit-length outside the table (R83). -/
theorem bitlen_range (v : Word) : 1 ≤ bitlen v ∧ bitlen v ≤ Config.lutEntries := by
  unfold bitlen clz32 Config.lutEntries
  omega

/-- `BYTECOUNT(v)` (R84). -/
def bytecount (v : Word) : Count := grouplut (bitlen v) (bitlen_range v)

/-- BYTECOUNT as a command (R84): one combinational evaluation of `ble_in`, shown on `count`. No operand
is refused and none fails (R87); the start is taken "any time the instance is not busy" (R177, log entry 9). It
touches no register of another unit and no byte space. The port keeps the count until the next BYTECOUNT or reset
(DESIGN CHOICE, log entry 11). -/
def execBytecount (s : State) : Host.Outcome State Fault Refusal :=
  startUnit s .bitLength (s.setBle { count := bytecount s.ports.bleIn, started := true })

end Sys2Proof.Machine
end

