-- ==== Sys2Proof/Machine/Encoder.lean ====
section
/-! DEFINITION. The Encoder: GRP7, LAST, OUTMUX, ENCODE at transaction level and its group-step machine
(41_encoder.md). -/

namespace Sys2Proof.Machine

/-- `GRP7(v, i) = (v >> (7 * i))[6:0]`, the shift logical (R101). -/
def grp7 (v : Word) (i : Nat) : Payload := (v >>> (7 * i)).extractLsb' 0 7

/-- `LAST(i, n)` (R102). -/
def lastGroup (i n : Nat) : Bool := decide (i + 1 = n)

/-- `OUTMUX(p, c)`: the byte whose bit 7 is `c` and whose bits 6 to 0 are `p` (R103). -/
def outmux (p : Payload) (c : Bool) : Byte := BitVec.ofBool c ++ p

/-- The byte of group `i` of a value of `n` groups: the continuation bit is 0 on the last group and 1 on
every other (R102, R104, R106). -/
def encByte (v : Word) (n i : Nat) : Byte := outmux (grp7 v i) (!lastGroup i n)

/-- The bytes of a value, group 0 first (R43, R104). -/
def encodeBytes (v : Word) : List Byte :=
  (List.range (bytecount v).toNat).map (encByte v (bytecount v).toNat)

/-- `ENCODE(x)` at transaction level (R104). -/
def encodeTx (x : EncOperand) : ResultENC :=
  if rangechk x then .ok (encodeBytes (encValuePart x)) else .err .invalidInput

/-- The ENCODE start step of an operand in range (R105): OBUF becomes a fresh buffer with no byte
written (DEDUCED, log entry 6). -/
def encStart (s : State) : State :=
  let v := encValuePart s.ports.encIn
  s.setEnc { s.enc with val := v, n := bytecount v, i := 0#3, obuf := [], phase := .busy }

/-- ENCODE as a command: its start step (R105), refused while the Encoder is `Busy` (R165, R174). The
group steps follow, one a step (R106; DEDUCED, log entry 4). A DECODE in flight stands in the way as well (R51,
log entry 9). -/
def execEncode (s : State) : Host.Outcome State Fault Refusal :=
  startUnit s .encoder (if rangechk s.ports.encIn then encStart s else s.raise .invalidInput)

/-- The OBUF index the next ENCODE group step writes (R48, R106). -/
def encWriteIndex (s : State) : Option Nat := if s.encBusy then some s.enc.i.toNat else none

/-- One ENCODE group step (R106) with the completion of R107: write the byte of group `enc_i`, advance,
and be `Done` when the new `enc_i` equals `enc_n`. Nothing happens unless the Encoder is `Busy`. -/
def encGroupStep (s : State) : State :=
  match encWriteIndex s with
  | none => s
  | some k =>
    let i' := s.enc.i + 1#3
    s.setEnc { s.enc with
      obuf := memWrite s.enc.obuf k (encByte s.enc.val s.enc.n.toNat k)
      i := i'
      phase := if i' = s.enc.n then .done else .busy }

end Sys2Proof.Machine
end

