-- ==== Sys2Proof/Machine/HostPort.lean ====
section
/-! DEFINITION. What the block does when no `start` is presented, and the host's moves
(70_reset_and_hazards.md R170, R174, R176, R177). -/

namespace Sys2Proof.Machine

/-- The block left alone: a unit in flight takes one group step, and a block with none waits for its
host (R164, R171). No run from reset has two units in flight (R51, R163); in a state that does, the
Encoder goes first, unless the host's moves `grantEnc` and `grantDec` say otherwise: the spec orders nothing
between them (DESIGN CHOICE, log entry 17). -/
def autoStep (s : State) : Host.Outcome State Fault Refusal :=
  if s.encBusy then .next (encGroupStep s) else decGroupStep s

/-- The host waits: the block steps while a unit is in flight, and then the wait is over (R176). -/
def awaitStep (s : State) (rest : List HostMove) : Host.Outcome State Fault Refusal :=
  if s.anyBusy then autoStep s else .next (s.setInputs rest)

/-- New DECODE operands and a new IBUF. While a DECODE reads they must not change: R174 duty (b). -/
def driveDecoder (s : State) (off len : Nat) (buf : Memory) : Host.Outcome State Fault Refusal :=
  if s.decReading then .refused .ibufChangedDuringDecode
  else .next (s.setPorts { s.ports with decOffIn := off, decLenIn := len, ibuf := buf })

def driveBitLength (s : State) (v : Word) : State := s.setPorts { s.ports with bleIn := v }

def driveEncoder (s : State) (x : EncOperand) : State := s.setPorts { s.ports with encIn := x }

/-- The state in which the next `start` presents the command word `op` (R67). -/
def presentStart (s : State) (op : Code) : State := s.setInputs (.start op :: s.inputs)

/-- `BYTECOUNT v` of the script syntax, as host moves (R73). -/
def scriptBytecount (v : Word) : List HostMove := [.driveBle v, .start (encodeOp .bytecount), .await]

/-- `ENCODE x` of the script syntax (R73), `x` a signed integer. An integer that the 64-bit operand port
cannot hold has no script: the spec does not say what it presents, and reducing it modulo 2^64 would be a
silent wraparound (R157). DESIGN CHOICE, log entry 15 (safe). -/
def scriptEncode (x : Int) : Option (List HostMove) :=
  if -2 ^ 63 ≤ x ∧ x < 2 ^ 63 then
    some [.driveEnc (BitVec.ofInt 64 x), .start (encodeOp .encode), .await]
  else none

/-- `DECODE buf, off` of the script syntax, `off` 0 where it is left out (R73, R74). -/
def scriptDecode (buf : List Byte) (off : Nat := 0) : List HostMove :=
  [.driveDec off buf.length (memOfBytes buf), .start (encodeOp .decode), .await]

end Sys2Proof.Machine
end

