-- ==== Sys2Proof/Machine/Reserved.lean ====
section
/-! DEFINITION. The reserved code `op = 0b11` (30_encoding.md R69). -/

namespace Sys2Proof.Machine

/-- "The block does not start, no register changes, no result is produced and no error cause is set: the
command is refused" (R69). -/
def execReserved3 (_s : State) : Host.Outcome State Fault Refusal := .refused .reservedOp

end Sys2Proof.Machine
end

