-- ==== Sys2Proof/Machine/Step.lean ====
section
/-! DEFINITION. One step of the block and its host (70_reset_and_hazards.md R176, R177). -/

namespace Sys2Proof.Machine

/-- One step: the host's next move if it has one, and a `start` runs the command it presents; with no
move to come, the block steps by itself. A move lands between two group steps, never inside one. -/
def step (s : State) : Host.Outcome State Fault Refusal :=
  match s.inputs with
  | [] => autoStep s
  | .start op :: rest => exec (decodeOp op) (s.setInputs rest)
  | .await :: rest => awaitStep s rest
  | .driveBle v :: rest => .next (driveBitLength (s.setInputs rest) v)
  | .driveEnc x :: rest => .next (driveEncoder (s.setInputs rest) x)
  | .driveDec off len buf :: rest => driveDecoder (s.setInputs rest) off len buf
  | .grantEnc :: rest => .next (encGroupStep (s.setInputs rest))
  | .grantDec :: rest => decGroupStep (s.setInputs rest)
  | .reset :: rest => .next (resetUnits (s.setInputs rest))

/-- The state whose very next step runs the command word `w`: the block fetches no instructions (R24),
so the host presents the word with its next `start`. Log entry 7. -/
def State.withFetchWord (s : State) (nbits w : Nat) : State :=
  presentStart s (BitVec.ofNat 2 (w % 2 ^ nbits))

end Sys2Proof.Machine
end

