-- ==== Sys2Proof/Machine/Instances.lean ====
section
/-! DEFINITION. Several instances of the block side by side: "the product of independent copies of the
one-instance model" (60_exceptions.md R163). -/

namespace Sys2Proof.Machine

/-- Instance `k` of a list of instances takes one step (DEDUCED, log entry 13). An index that names
no instance does nothing. -/
def stepInstance (k : Nat) (all : List State) : Host.Outcome (List State) Fault Refusal :=
  match all[k]? with
  | none => .next all
  | some s =>
    match step s with
    | .next t => .next (all.set k t)
    | .fault f => .fault f
    | .refused r => .refused r

end Sys2Proof.Machine
end

