-- ==== Sys2Proof/Machine/Trace.lean ====
section
/-! DEFINITION. Runs of group steps and the byte accesses they make, in order (20_memory.md R47, R48;
41_encoder.md R110; 42_decoder.md R135). -/

namespace Sys2Proof.Machine

/-- `k` ENCODE group steps (R106). -/
def encSteps : Nat → State → State
  | 0, s => s
  | k + 1, s => encSteps k (encGroupStep s)

/-- `k` DECODE group steps (R129), stopping at a fault. -/
def decSteps : Nat → State → Host.Outcome State Fault Refusal
  | 0, s => .next s
  | k + 1, s =>
    match decGroupStep s with
    | .next t => decSteps k t
    | .fault f => .fault f
    | .refused r => .refused r

/-- The OBUF indices that the next `k` ENCODE group steps write, in order. -/
def encWrites : Nat → State → List Nat
  | 0, _ => []
  | k + 1, s => (encWriteIndex s).toList ++ encWrites k (encGroupStep s)

/-- The IBUF indices that the next `k` DECODE group steps read, in order. -/
def decReads : Nat → State → List Nat
  | 0, _ => []
  | k + 1, s =>
    (decReadIndex s).toList ++
      match decGroupStep s with
      | .next t => decReads k t
      | .fault _ => []
      | .refused _ => []

/-- IBUF holds the sequence `buf` from index 0 on (R41). -/
abbrev ibufHolds (m : Memory) (buf : List Byte) : Prop := ∀ a < buf.length, memRead m a = buf[a]?

/-- The host presents `buf` and the offset `off` on the DECODE operand ports (R41, R68). -/
abbrev presentsDecode (s : State) (buf : List Byte) (off : Nat) : Prop :=
  s.ports.decOffIn = off ∧ s.ports.decLenIn = buf.length ∧ ibufHolds s.ports.ibuf buf

end Sys2Proof.Machine
end

