-- ==== Sys2Proof/Safety.lean ====
section
/-! DEFINITION. What the host must respect, and the invariants of the state (10_state.md R27, R33;
20_memory.md R41; 70_reset_and_hazards.md R174). -/

namespace Sys2Proof.Machine

/-- What the host owes when it drives the DECODE operands: an IBUF in canonical form that holds
`dec_len` bytes (R41). R41 knows no byte at or above `dec_len`: one that the host lists there is accepted
and never read (DESIGN CHOICE, log entry 16, safe). No other move owes anything (R72). -/
def HostMove.wf : HostMove → Prop
  | .driveDec _ len buf => Memory.wf buf ∧ memSupplied buf len
  | .driveBle _ => True
  | .driveEnc _ => True
  | .start _ => True
  | .grantEnc => True
  | .grantDec => True
  | .await => True
  | .reset => True

/-- A move that an instance with `ADDR_W = w` can be given: `dec_off` and `dec_len` fit their ports (R41). -/
def HostMove.fits (w : Nat) : HostMove → Prop
  | .driveDec off len _ => off < 2 ^ w ∧ len < 2 ^ w
  | .driveBle _ => True
  | .driveEnc _ => True
  | .start _ => True
  | .grantEnc => True
  | .grantDec => True
  | .await => True
  | .reset => True

/-- The states of an instance with `ADDR_W = w` (R4, R23, R41): every offset and length fits. -/
structure State.Fits (w : Nat) (s : State) : Prop where
  offIn : s.ports.decOffIn < 2 ^ w
  lenIn : s.ports.decLenIn < 2 ^ w
  off : s.dec.off < 2 ^ w
  len : s.dec.len < 2 ^ w
  inputs : ∀ m ∈ s.inputs, m.fits w

/-- R33 for the Encoder, with the canonical form of OBUF. -/
structure State.EncInv (s : State) : Prop where
  obufWf : Memory.wf s.enc.obuf
  busy : s.enc.phase = .busy →
    1 ≤ s.enc.n.toNat ∧ s.enc.n.toNat ≤ 5 ∧ s.enc.i.toNat < s.enc.n.toNat ∧
      ∀ a, ((memRead s.enc.obuf a).isSome = true ↔ a < s.enc.i.toNat)
  done : s.enc.phase = .done →
    s.enc.i = s.enc.n ∧ 1 ≤ s.enc.n.toNat ∧ s.enc.n.toNat ≤ 5 ∧
      ∀ a, ((memRead s.enc.obuf a).isSome = true ↔ a < s.enc.n.toNat)
  failed : s.enc.phase = .failed → s.enc.cause = Cause.invalidInput.code

/-- R33 for the Decoder, with R27's bound on the accumulator. -/
structure State.DecInv (s : State) : Prop where
  reading : ∀ i : Fin 5, s.dec.phase = .reading i →
    s.dec.group.toNat = i.val ∧ s.dec.acc.toNat < 2 ^ (7 * i.val)
  done : s.dec.phase = .done → s.dec.group.toNat ≤ 4
  failed : s.dec.phase = .failed →
    s.dec.cause = Cause.truncated.code ∨ s.dec.cause = Cause.overflow.code

/-- The host's duties of R41 and R174 (b): IBUF is supplied, and while a DECODE reads, the operands it
latched are still the ones on the ports. -/
structure State.HostInv (s : State) : Prop where
  ibufWf : Memory.wf s.ports.ibuf
  supplied : memSupplied s.ports.ibuf s.ports.decLenIn
  stable : s.decReading = true → s.dec.off = s.ports.decOffIn ∧ s.dec.len = s.ports.decLenIn
  inputs : ∀ m ∈ s.inputs, m.wf

/-- The invariant of the machine: R33 with the duties of the host. -/
structure State.Inv (s : State) : Prop where
  enc : s.EncInv
  dec : s.DecInv
  host : s.HostInv

/-- What OBUF holds of the value in flight (R106, R109): the bytes of groups 0 to `enc_i - 1`, and
nothing else. -/
def State.encCoherent (s : State) : Prop :=
  s.enc.phase = .busy ∨ s.enc.phase = .done →
    s.enc.n = bytecount s.enc.val ∧
      s.enc.obuf =
        memOfBytes ((List.range s.enc.i.toNat).map (encByte s.enc.val s.enc.n.toNat))

/-- A step of a safe run is no fault: no DECODE reads a byte that was not supplied. -/
def State.stepSafe (s : State) : Prop := ∀ f : Fault, step s ≠ .fault f

end Sys2Proof.Machine
end

