-- ==== Sys2Proof/Certificates/Slice0/Obligations.lean ====
section
/-! DEFINITION. The statements about the block, in the order of the spec's files: commands,
BitLengthEstimator, Encoder, Decoder, errors, reset, invariants, frames and whole-machine rules. -/

open Sys2Proof Sys2Proof.Machine

/-! ### Commands (30_encoding.md) -/

/-- R67, R69: the words written out in the table of R67 decode to the operations they stand for. -/
def Obligations.CommandWordsSpellTheirOperations : Prop :=
  decodeOp 0b00#2 = .bytecount ∧ decodeOp 0b01#2 = .encode ∧ decodeOp 0b10#2 = .decode ∧
    decodeOp 0b11#2 = .reserved3 ∧ decodeBytes [0x02#8] = .ok (.decode, []) ∧
    decodeBytes [] = .error .noCommandWord

/-- Every command decodes back from its own byte, and every operation code is the code of what it
decodes to. The byte that carries the code is the model's (log entry 3). -/
def Obligations.DecodeOfEncodeIsTheCommand : Prop :=
  (∀ (i : Instr) (rest : List Byte), decodeBytes (encode i ++ rest) = .ok (i, rest)) ∧
    ∀ op : Code, encodeOp (decodeOp op) = op

/-- A step whose next host move is a `start` is exec of the command presented, at the state in which
that move has been made. The list of host moves is the model's (log entry 7). -/
def Obligations.StepRunsThePresentedCommand : Prop :=
  (∀ (s : State) (op : Code) (rest : List HostMove), s.inputs = .start op :: rest →
      step s = exec (decodeOp op) (s.setInputs rest)) ∧
    (∀ (s : State) (i : Instr), step (presentStart s (encodeOp i)) = exec i s) ∧
    ∀ (s : State) (nbits w : Nat) (i : Instr), decodeTableWord nbits w = some i →
      step (s.withFetchWord nbits w) = exec i s

/-- R164, R176, R177: what a step is when no `start` is presented. With no move to come a unit in flight
takes a group step, and a block at rest waits; a grant lets its unit take one; a wait lasts while a unit
is in flight. The list of moves is the model's (log entry 7), and so is that the Encoder goes first when
both units are in flight, which no run from reset reaches, and no grant says otherwise (log entry 17). -/
def Obligations.StepWithoutStartIsAGroupStepOrAWait : Prop :=
  ∀ s : State,
    (s.inputs = [] → s.enc.phase = .busy → step s = .next (encGroupStep s)) ∧
    (s.inputs = [] → s.enc.phase ≠ .busy → step s = decGroupStep s) ∧
    (s.inputs = [] → s.enc.phase ≠ .busy → (∀ i, s.dec.phase ≠ .reading i) → step s = .next s) ∧
    (∀ rest, s.inputs = .grantEnc :: rest → step s = .next (encGroupStep (s.setInputs rest))) ∧
    (∀ rest, s.inputs = .grantDec :: rest → step s = decGroupStep (s.setInputs rest)) ∧
    (∀ rest, s.inputs = .await :: rest → s.enc.phase = .busy → step s = .next (encGroupStep s)) ∧
    (∀ rest, s.inputs = .await :: rest → s.enc.phase ≠ .busy → (∃ i, s.dec.phase = .reading i) →
      step s = decGroupStep s) ∧
    (∀ rest, s.inputs = .await :: rest → s.enc.phase ≠ .busy → (∀ i, s.dec.phase ≠ .reading i) →
      step s = .next (s.setInputs rest))

/-- R68, R177: a host that drives an operand port changes that port and nothing else; the DECODE ports
are driven with their IBUF while no DECODE reads. The list of moves is the model's (log entry 7). -/
def Obligations.HostMovesDriveTheOperandPorts : Prop :=
  ∀ (s : State) (rest : List HostMove),
    (∀ v, s.inputs = .driveBle v :: rest →
      step s = .next { s with inputs := rest, ports := { s.ports with bleIn := v } }) ∧
    (∀ x, s.inputs = .driveEnc x :: rest →
      step s = .next { s with inputs := rest, ports := { s.ports with encIn := x } }) ∧
    (∀ off len buf, s.inputs = .driveDec off len buf :: rest → (∀ i, s.dec.phase ≠ .reading i) →
      step s = .next { s with inputs := rest,
                              ports := { s.ports with decOffIn := off, decLenIn := len, ibuf := buf } })

/-- R69: the reserved code is refused, as a command and as the next `start` of a host. -/
def Obligations.ReservedCodeIsRefused : Prop :=
  (∀ s : State, exec .reserved3 s = .refused .reservedOp) ∧
    ∀ (s : State) (rest : List HostMove), s.inputs = .start 0b11#2 :: rest →
      step s = .refused .reservedOp

/-- R69, R165: a command is turned away for the reserved code and for a `start` while the addressed unit
is in flight, each by its name. Besides these there is only one: a `start` while another unit of the
instance is in flight (R51, R163; log entry 9). No command ends in a fault. -/
def Obligations.CommandsAreRefusedExactlyWhen : Prop :=
  ∀ (i : Instr) (s : State),
    (∀ r : Refusal, exec i s = .refused r ↔
      (i = .reserved3 ∧ r = .reservedOp) ∨
      (i = .encode ∧ s.enc.phase = .busy ∧ r = .startWhileBusy .encoder) ∨
      (i = .decode ∧ (∃ k, s.dec.phase = .reading k) ∧ r = .startWhileBusy .decoder) ∨
      (i = .bytecount ∧ (s.enc.phase = .busy ∨ ∃ k, s.dec.phase = .reading k) ∧
        r = .startWhileInstanceBusy .bitLength) ∨
      (i = .encode ∧ s.enc.phase ≠ .busy ∧ (∃ k, s.dec.phase = .reading k) ∧
        r = .startWhileInstanceBusy .encoder) ∨
      (i = .decode ∧ (∀ k, s.dec.phase ≠ .reading k) ∧ s.enc.phase = .busy ∧
        r = .startWhileInstanceBusy .decoder)) ∧
    ∀ f : Fault, exec i s ≠ .fault f

/-! ### BitLengthEstimator (40_bitlength.md) -/

/-- R80: `CLZ32` of a nonzero word counts its leading zeros: the bits above `31 - CLZ32` are 0 and that
bit is 1. -/
def Obligations.ClzCountsLeadingZeros : Prop :=
  ∀ (x : Word) (h : x ≠ 0#32),
    clz32 x h ≤ 31 ∧ x.getLsbD (31 - clz32 x h) = true ∧
      ∀ j, 31 - clz32 x h < j → x.getLsbD j = false

/-- R81: `OR1` sets bit 0 and no other, never gives 0, and keeps the highest set bit of a nonzero
value; of 0 it gives 1. -/
def Obligations.ZeroGuardSetsBitZeroOnly : Prop :=
  (∀ (v : Word) (k : Nat), (or1 v).getLsbD k = (decide (k = 0) || v.getLsbD k)) ∧
    (∀ v : Word, or1 v ≠ 0#32) ∧
    (∀ v : Word, v ≠ 0#32 → Nat.log2 (or1 v).toNat = Nat.log2 v.toNat) ∧ or1 0#32 = 1#32

/-- R82: `BITLEN(v) = 32 - CLZ32(OR1(v))`, which for a nonzero value is its highest set bit plus one
and for 0 is 1. -/
def Obligations.BitlenIsHighestBitPlusOne : Prop :=
  (∀ v : Word, bitlen v = 32 - clz32 (or1 v) (or1_ne_zero v)) ∧
    (∀ v : Word, v ≠ 0#32 → bitlen v = Nat.log2 v.toNat + 1) ∧ bitlen 0#32 = 1 ∧
    ∀ v : Word, 1 ≤ bitlen v ∧ bitlen v ≤ 32

/-- R83: the table has 32 entries, in runs of 7, 7, 7, 7 and 4. -/
def Obligations.GroupTableEntries : Prop :=
  groupLutTable.length = 32 ∧
    ∀ (b : Nat) (h : 1 ≤ b ∧ b ≤ Config.lutEntries),
      (grouplut b h).toNat =
        if b ≤ 7 then 1 else if b ≤ 14 then 2 else if b ≤ 21 then 3 else if b ≤ 28 then 4 else 5

/-- R85: the four closed forms of BYTECOUNT. -/
def Obligations.BytecountClosedForms : Prop :=
  ∀ v : Word,
    bytecount v = grouplut (bitlen v) (bitlen_range v) ∧
    (bytecount v).toNat = (bitlen v + 6) / 7 ∧
    (bytecount v).toNat = (if v = 0#32 then 1 else 1 + Nat.log2 v.toNat / 7) ∧
    1 ≤ (bytecount v).toNat ∧ (bytecount v).toNat ≤ 5 ∧ v.toNat < 2 ^ (7 * (bytecount v).toNat) ∧
    ∀ k, 1 ≤ k → v.toNat < 2 ^ (7 * k) → (bytecount v).toNat ≤ k

/-- R86: the boundaries of BYTECOUNT, and that it is monotonic. -/
def Obligations.BytecountBoundaries : Prop :=
  (∀ v : Word,
    ((bytecount v).toNat = 1 ↔ v.toNat ≤ 127) ∧
    ((bytecount v).toNat = 2 ↔ 128 ≤ v.toNat ∧ v.toNat ≤ 16383) ∧
    ((bytecount v).toNat = 3 ↔ 16384 ≤ v.toNat ∧ v.toNat ≤ 2097151) ∧
    ((bytecount v).toNat = 4 ↔ 2097152 ≤ v.toNat ∧ v.toNat ≤ 268435455) ∧
    ((bytecount v).toNat = 5 ↔ 268435456 ≤ v.toNat ∧ v.toNat ≤ 4294967295)) ∧
  ∀ u v : Word, u.toNat ≤ v.toNat → (bytecount u).toNat ≤ (bytecount v).toNat

/-- R84, R87, R177: for every operand BYTECOUNT completes whenever the instance is not busy (log entry 9),
shows the byte count of `ble_in` on `count` with status
0, and changes nothing else. That the port holds the count is the model's (log entry 11). -/
def Obligations.BytecountCompletes : Prop :=
  ∀ s : State, s.anyBusy = false → ∃ t : State, exec .bytecount s = .next t ∧
    t = s.setBle { count := bytecount s.ports.bleIn, started := true } ∧
    bcResult t = some (bytecount s.ports.bleIn) ∧
    1 ≤ (bytecount s.ports.bleIn).toNat ∧ (bytecount s.ports.bleIn).toNat ≤ 5 ∧
    s.ports.bleIn.toNat < 2 ^ (7 * (bytecount s.ports.bleIn).toNat) ∧ bleStatus t = 0

/-! ### Encoder (41_encoder.md) -/

/-- R100: `RANGECHK` accepts exactly the signed integers from 0 to 2^32 - 1, at every operand width of
34 or more (R4). -/
def Obligations.RangeCheckAcceptsExactlyUint32 : Prop :=
  ∀ (w : Nat) (x : BitVec w), 34 ≤ w →
    (rangechk x = true ↔ 0 ≤ x.toInt ∧ x.toInt ≤ 4294967295)

/-- R101: payload bit `k` of group `i` is bit `7i + k` of the value, 0 past bit 31; a group at or past
the byte count is 0. -/
def Obligations.GroupShifterTakesSevenBits : Prop :=
  (∀ (v : Word) (i k : Nat), i ≤ 4 → k < 7 →
    (grp7 v i).getLsbD k = if 7 * i + k ≤ 31 then v.getLsbD (7 * i + k) else false) ∧
  (∀ (v : Word) (i : Nat), (bytecount v).toNat ≤ i → grp7 v i = 0#7) ∧
  grp7 0xFFFFFFFF#32 4 = 0x0F#7 ∧ grp7 0x80000000#32 4 = 0x08#7 ∧
  grp7 300#32 0 = 0x2C#7 ∧ grp7 300#32 1 = 0x02#7

/-- R105: the ENCODE start step in full: refused while `Busy`; `Failed` with cause 1 and nothing else
written when the operand is out of range; otherwise the value, its byte count, index 0 and a fresh OBUF.
While a DECODE is in flight it is refused (R51, log entry 9). -/
def Obligations.EncodeStartStep : Prop :=
  ∀ s : State,
    (s.enc.phase = .busy → exec .encode s = .refused (.startWhileBusy .encoder)) ∧
    (s.enc.phase ≠ .busy → (∃ i, s.dec.phase = .reading i) →
      exec .encode s = .refused (.startWhileInstanceBusy .encoder)) ∧
    (s.anyBusy = false → rangechk s.ports.encIn = false →
      exec .encode s = .next (s.setEnc { s.enc with phase := .failed, cause := 1#2 })) ∧
    (s.anyBusy = false → rangechk s.ports.encIn = true →
      exec .encode s = .next (s.setEnc
        { val := s.ports.encIn.extractLsb' 0 32
          n := bytecount (s.ports.encIn.extractLsb' 0 32)
          i := 0#3
          obuf := []
          phase := .busy
          cause := s.enc.cause }))

/-- R106, R107: an ENCODE group step writes the one byte of group `enc_i`, advances the index and is
`Done` when it reaches `enc_n`. Every other OBUF byte, every other register, the ports and the other
units are as before. With no move to come the next step is that group step; in a state with a DECODE in
flight as well, which no run from reset reaches, that the Encoder goes first is the model's (log entry 17). -/
def Obligations.EncodeGroupStepWritesOneByte : Prop :=
  ∀ s : State, s.enc.phase = .busy →
    ∃ t : State, encGroupStep s = t ∧ (s.inputs = [] → step s = .next t) ∧
      memRead t.enc.obuf s.enc.i.toNat =
        some (outmux (grp7 s.enc.val s.enc.i.toNat) (decide (s.enc.i.toNat + 1 ≠ s.enc.n.toNat))) ∧
      (∀ a, a ≠ s.enc.i.toNat → memRead t.enc.obuf a = memRead s.enc.obuf a) ∧
      t.enc.i = s.enc.i + 1#3 ∧
      t.enc.phase = (if s.enc.i + 1#3 = s.enc.n then .done else .busy) ∧
      t.enc.val = s.enc.val ∧ t.enc.n = s.enc.n ∧ t.enc.cause = s.enc.cause ∧
      t.dec = s.dec ∧ t.ble = s.ble ∧ t.ports = s.ports ∧ t.inputs = s.inputs

/-- R110: from any state with no operation in flight (log entry 9), the ENCODE start step and the group
steps that follow reach a terminal phase, after exactly `enc_n` group steps or none, with the result of
the transaction-level ENCODE (R104) on the ports; nothing outside the Encoder changes. -/
def Obligations.EncodeRunGivesTransactionResult : Prop :=
  ∀ s : State, s.anyBusy = false →
    (rangechk s.ports.encIn = false → ∃ t : State, exec .encode s = .next t ∧
      t.enc.phase = .failed ∧ encResult t = some (encodeTx s.ports.encIn) ∧
      encResult t = some (.err .invalidInput) ∧ encStatus t = some 1#2) ∧
    (rangechk s.ports.encIn = true → ∃ t : State, exec .encode s = .next t ∧
      (∀ k, k < (bytecount (encValuePart s.ports.encIn)).toNat → (encSteps k t).enc.phase = .busy) ∧
      ∃ u : State, encSteps (bytecount (encValuePart s.ports.encIn)).toNat t = u ∧
        u.enc.phase = .done ∧ encResult u = some (encodeTx s.ports.encIn) ∧
        encResult u = some (.ok (encodeBytes (encValuePart s.ports.encIn))) ∧
        outLen u = some (bytecount (encValuePart s.ports.encIn)) ∧ encStatus u = some 0#2 ∧
        u.dec = s.dec ∧ u.ble = s.ble ∧ u.ports = s.ports ∧ u.inputs = s.inputs)

/-- R108 (b), (d) with R63: the bytes of a value have its byte count, a continuation bit of 1 on every
byte but the last, a nonzero last payload unless the value is 0, and a fifth byte from 0x01 to 0x0F. -/
def Obligations.EncodedBytesAreCanonical : Prop :=
  ∀ v : Word,
    (encodeBytes v).length = (bytecount v).toNat ∧
    (∀ (i : Nat) (b : Byte), (encodeBytes v)[i]? = some b →
      b.getLsbD 7 = decide (i + 1 < (bytecount v).toNat)) ∧
    (v ≠ 0#32 → ∀ b : Byte, (encodeBytes v).getLast? = some b → b.extractLsb' 0 7 ≠ 0#7) ∧
    encodeBytes 0#32 = [0x00#8] ∧
    ∀ b : Byte, (encodeBytes v)[4]? = some b → 0x01 ≤ b.toNat ∧ b.toNat ≤ 0x0F

/-- R109: the bytes of a value are functions of the value alone, group by group: bit 7 and the 7 bits
of the group, no bit of anything else. -/
def Obligations.EncodedBitsComeFromTheValue : Prop :=
  ∀ (v : Word) (i : Nat), i < (bytecount v).toNat →
    ∃ b : Byte, (encodeBytes v)[i]? = some b ∧
      (∀ k, k < 7 → b.getLsbD k = v.getLsbD (7 * i + k)) ∧
      b.getLsbD 7 = decide (i + 1 ≠ (bytecount v).toNat)

/-- R108 (a): no sequence shorter than the Encoder's decodes to the same value. -/
def Obligations.EncodedLengthIsMinimal : Prop :=
  ∀ (v : Word) (buf : List Byte) (off : Nat) (c : Count),
    decodeTx buf off = .ok v c → (encodeBytes v).length ≤ c.toNat

/-- R48: a successful ENCODE writes OBUF indices 0 to n - 1, each once, in ascending order, and a
failing one writes none, however long it is stepped. -/
def Obligations.EncodeWritesEachIndexOnceInOrder : Prop :=
  ∀ (s t : State) (k : Nat), exec .encode s = .next t → 5 ≤ k →
    encWrites k t =
      if rangechk s.ports.encIn then List.range (bytecount (encValuePart s.ports.encIn)).toNat else []

/-! ### Decoder (42_decoder.md) -/

/-- R103, R121: the scanner splits what the output mux joins, and the other way round. -/
def Obligations.ScannerSplitsWhatTheMuxJoins : Prop :=
  (∀ (p : Payload) (c : Bool), contscan (outmux p c) = (c, p)) ∧
    ∀ b : Byte, outmux (contscan b).2 (contscan b).1 = b

/-- R49, R120: at every `ADDR_W` the read index is the sum without wrap, at most 2^ADDR_W + 3, and the
test fails whenever the sum passes the end of the buffer or the top of the address range. -/
def Obligations.BoundsNeverWrap : Prop :=
  ∀ w off g len : Nat, off < 2 ^ w → len < 2 ^ w → g ≤ 4 →
    (bounds off g len).1 = off + g ∧ (bounds off g len).1 ≤ 2 ^ w + 3 ∧
    ((bounds off g len).2 = true ↔ off + g < len) ∧
    (2 ^ w ≤ off + g → (bounds off g len).2 = false) ∧
    (len = 0 → (bounds off 0 len).2 = false) ∧ (len ≤ off → (bounds off 0 len).2 = false)

/-- R122: the shifter puts the payload on bits `7g` to `7g + 6` of 35 and loses no bit. -/
def Obligations.BarrelShifterPlacesThePayload : Prop :=
  (∀ (p : Payload) (g k : Nat), g ≤ 4 →
    (dshift p g).getLsbD k = (decide (7 * g ≤ k) && decide (k < 7 * g + 7) && p.getLsbD (k - 7 * g))) ∧
  (∀ (p : Payload) (g : Nat), g ≤ 4 → (dshift p g).toNat = p.toNat * 2 ^ (7 * g)) ∧
  dshift 0x7F#7 4 = 0x7F0000000#35 ∧ dshift 0x0F#7 4 = 0x0F0000000#35 ∧ dshift 0x02#7 1 = 0x100#35

/-- R123, R136: below bit `7g` the accumulator's OR is an addition, and with no upper payload bit set it
adds the whole shifted payload. -/
def Obligations.AccumulatorOrIsAddition : Prop :=
  ∀ (a : Word) (p : Payload) (g : Nat), g ≤ 4 → a.toNat < 2 ^ (7 * g) →
    (accUpdate a (dshift p g)).toNat = a.toNat + ((dshift p g).extractLsb' 0 32).toNat ∧
    (ovfdet p g = false → (accUpdate a (dshift p g)).toNat = a.toNat + p.toNat * 2 ^ (7 * g))

/-- R124: the detector fires exactly when the shifted payload has a bit above 31, which is at group 4
with one of payload bits 6 to 4 set. -/
def Obligations.OverflowDetectorSeesBitsAbove31 : Prop :=
  ∀ (p : Payload) (g : Nat), g ≤ 4 →
    (ovfdet p g = true ↔ g = 4 ∧ p.extractLsb' 4 3 ≠ 0#3) ∧
    (ovfdet p g = true ↔ (dshift p g).extractLsb' 32 3 ≠ 0#3)

/-- R128: the DECODE start step in full: refused while `Reading(i)`, otherwise the operands are latched,
the accumulator and the group are 0 and the phase is `Reading(0)`. While an ENCODE is in flight it is
refused (R51, log entry 9). -/
def Obligations.DecodeStartStep : Prop :=
  ∀ s : State,
    ((∃ i, s.dec.phase = .reading i) → exec .decode s = .refused (.startWhileBusy .decoder)) ∧
    ((∀ i, s.dec.phase ≠ .reading i) → s.enc.phase = .busy →
      exec .decode s = .refused (.startWhileInstanceBusy .decoder)) ∧
    (s.anyBusy = false →
      exec .decode s = .next (s.setDec
        { acc := 0#32
          group := 0#3
          off := s.ports.decOffIn
          len := s.ports.decLenIn
          phase := .reading 0
          cause := s.dec.cause }))

/-- R129, R156: the five outcomes of the step `Reading(i)`, in the order tested. The accumulator takes
the payload before the failure is found; the spec lets a model leave it unchanged there (log entry 10). -/
def Obligations.DecodeGroupStepOutcomes : Prop :=
  ∀ (s : State) (i : Fin 5), s.dec.phase = .reading i →
    (s.dec.len ≤ s.dec.off + i.val →
      decGroupStep s = .next (s.setDec { s.dec with phase := .failed, cause := 2#2 })) ∧
    ∀ b : Byte, s.dec.off + i.val < s.dec.len →
      memRead s.ports.ibuf (s.dec.off + i.val) = some b →
      let acc' := accUpdate s.dec.acc (dshift (b.extractLsb' 0 7) i.val)
      (i.val = 4 ∧ b.extractLsb' 4 3 ≠ 0#3 →
        decGroupStep s = .next (s.setDec { s.dec with acc := acc', phase := .failed, cause := 3#2 })) ∧
      (¬(i.val = 4 ∧ b.extractLsb' 4 3 ≠ 0#3) → b.getLsbD 7 = false →
        decGroupStep s = .next (s.setDec { s.dec with acc := acc', phase := .done })) ∧
      (i.val = 4 ∧ b.extractLsb' 4 3 = 0#3 → b.getLsbD 7 = true →
        decGroupStep s = .next (s.setDec { s.dec with acc := acc', phase := .failed, cause := 3#2 })) ∧
      (i.val < 4 → b.getLsbD 7 = true →
        ∃ j : Fin 5, j.val = i.val + 1 ∧
          decGroupStep s = .next (s.setDec
            { s.dec with acc := acc', group := BitVec.ofNat 3 (i.val + 1), phase := .reading j }))

/-- R65: the fifth byte is accepted exactly when its upper four bits are 0, and otherwise the call fails
with Overflow. -/
def Obligations.FifthByteAcceptedExactlyBelow16 : Prop :=
  ∀ (s : State) (b : Byte), s.dec.phase = .reading 4 → s.dec.off + 4 < s.dec.len →
    memRead s.ports.ibuf (s.dec.off + 4) = some b →
    ∃ t : State, decGroupStep s = .next t ∧
      (b &&& 0xF0#8 = 0#8 → t.dec.phase = .done) ∧
      (b &&& 0xF0#8 ≠ 0#8 → t.dec.phase = .failed ∧ decStatus t = some 3#2)

/-- R152: a DECODE group step fails with Truncated exactly when the byte it needs lies past the buffer,
and then it reads no byte and changes only phase and cause. -/
def Obligations.TruncatedExactlyPastTheBuffer : Prop :=
  ∀ (s t : State) (i : Fin 5), s.dec.phase = .reading i → decGroupStep s = .next t →
    ((t.dec.phase = .failed ∧ t.dec.cause = 2#2) ↔ s.dec.len ≤ s.dec.off + i.val) ∧
    (s.dec.len ≤ s.dec.off + i.val → decReadIndex s = none ∧ valuePort t = none ∧
      consumedPort t = none ∧ t = s.setDec { s.dec with phase := .failed, cause := 2#2 })

/-- R135: from any state with no operation in flight (log entry 9), the DECODE start step and the group
steps that follow reach `Done` or `Failed` after 1 to 5 group steps and not before, with the result of
the transaction-level DECODE (R126) on the ports; nothing outside the Decoder changes. -/
def Obligations.DecodeRunGivesTransactionResult : Prop :=
  ∀ (s : State) (buf : List Byte) (off : Nat), s.anyBusy = false →
    presentsDecode s buf off →
    ∃ t : State, exec .decode s = .next t ∧
      ∃ (k : Nat) (u : State), 1 ≤ k ∧ k ≤ 5 ∧ decSteps k t = .next u ∧
        (∀ j, j < k → ∃ (u' : State) (i : Fin 5), decSteps j t = .next u' ∧ u'.dec.phase = .reading i) ∧
        (u.dec.phase = .done ∨ u.dec.phase = .failed) ∧
        decResult u = some (decodeTx buf off) ∧
        u.enc = s.enc ∧ u.ble = s.ble ∧ u.ports = s.ports ∧ u.inputs = s.inputs

/-- R47: the IBUF indices a DECODE reads: `dec_off` on, in ascending order, each once; as many as are
consumed on success, as many as the buffer has on Truncated, five on Overflow; and no other. -/
def Obligations.DecodeReadsExactlyTheBytesItNeeds : Prop :=
  ∀ (s t : State) (buf : List Byte) (off k : Nat), presentsDecode s buf off →
    exec .decode s = .next t → 5 ≤ k →
    decReads k t =
      (List.range (match decodeTx buf off with
        | .ok _ c => c.toNat
        | .err .truncated => buf.length - off
        | .err .overflow => 5)).map (off + ·)

/-- R66: what can stand at `dec_off`, with the Decoder's verdict. -/
def Obligations.DecodeClassifiesItsInput : Prop :=
  ∀ (buf : List Byte) (off : Nat),
    (decodeTx buf off = .err .truncated ↔
      (buf.drop off).length < 5 ∧ ∀ b ∈ buf.drop off, b.getLsbD 7 = true) ∧
    (∀ c : Count, (∃ v : Word, decodeTx buf off = .ok v c) ↔
      ∃ (t : Nat) (b : Byte), t ≤ 4 ∧ c.toNat = t + 1 ∧
        (∀ b' ∈ (buf.drop off).take t, b'.getLsbD 7 = true) ∧ (buf.drop off)[t]? = some b ∧
        b.getLsbD 7 = false ∧ (t = 4 → b.extractLsb' 4 3 = 0#3)) ∧
    (decodeTx buf off = .err .overflow ↔
      (∀ b' ∈ (buf.drop off).take 4, b'.getLsbD 7 = true) ∧
        ∃ b : Byte, (buf.drop off)[4]? = some b ∧ (b.extractLsb' 4 3 ≠ 0#3 ∨ b.getLsbD 7 = true))

/-- R61, R136: a decoded value is the sum of its payloads, each at its group's weight, and between one
and five bytes are consumed. -/
def Obligations.DecodedValueIsThePayloadSum : Prop :=
  ∀ (buf : List Byte) (off : Nat) (v : Word) (c : Count), decodeTx buf off = .ok v c →
    1 ≤ c.toNat ∧ c.toNat ≤ 5 ∧ off + c.toNat ≤ buf.length ∧
    v.toNat =
      (((buf.drop off).take c.toNat).mapIdx fun j b => (b.extractLsb' 0 7).toNat * 2 ^ (7 * j)).sum

/-- R131: a successful DECODE depends on no byte after the terminating one, nor on the buffer's length
beyond it. -/
def Obligations.DecodeIgnoresBytesPastTheTerminator : Prop :=
  ∀ (buf buf' : List Byte) (off : Nat) (v : Word) (c : Count), decodeTx buf off = .ok v c →
    (∀ j, j < c.toNat → buf'[off + j]? = buf[off + j]?) → decodeTx buf' off = .ok v c

/-- R133: input that is longer than needed is accepted: the encoded bytes of a value, every
continuation bit set, and a zero byte after them decode to the value and consume one byte more. -/
def Obligations.OverlongInputIsAccepted : Prop :=
  ∀ v : Word, (bytecount v).toNat < 5 →
    decodeTx ((encodeBytes v).map (· ||| 0x80#8) ++ [0x00#8]) 0 = .ok v (bytecount v + 1#3)

/-- R134: every value comes back from its encoded bytes, at whatever place of a larger buffer they
stand, and exactly those bytes are consumed. -/
def Obligations.RoundTripAtAnyOffset : Prop :=
  ∀ (v : Word) (before after : List Byte),
    ∃ c : Count, c.toNat = (encodeBytes v).length ∧
      decodeTx (before ++ encodeBytes v ++ after) before.length = .ok v c

/-- R108 (c), R134 on the machine: what an ENCODE of an operand in range leaves in OBUF, put anywhere in
the IBUF of any block with no operation in flight (log entry 9), is decoded by that block to the operand. -/
def Obligations.EncodedValueComesBackThroughTheDecoder : Prop :=
  ∀ (s t : State), rangechk s.ports.encIn = true → exec .encode s = .next t →
    ∃ bytes : List Byte, encResult (encSteps 5 t) = some (.ok bytes) ∧
      ∀ (s' : State) (before after : List Byte), s'.anyBusy = false →
        presentsDecode s' (before ++ bytes ++ after) before.length →
        ∃ t' u : State, exec .decode s' = .next t' ∧ decSteps 5 t' = .next u ∧
          u.dec.phase = .done ∧ valuePort u = some (encValuePart s.ports.encIn) ∧
          (consumedPort u).map BitVec.toNat = some bytes.length ∧
          ((encValuePart s.ports.encIn).toNat : Int) = s.ports.encIn.toInt

/-! ### Errors (60_exceptions.md) -/

/-- R158: error entry changes the phase and the cause of the unit that raises, and nothing else; the
status shows the code, and the operation's value ports carry nothing. -/
def Obligations.ErrorEntryChangesPhaseAndCauseOnly : Prop :=
  ∀ s : State,
    s.raise .invalidInput = s.setEnc { s.enc with phase := .failed, cause := 1#2 } ∧
    s.raise .truncated = s.setDec { s.dec with phase := .failed, cause := 2#2 } ∧
    s.raise .overflow = s.setDec { s.dec with phase := .failed, cause := 3#2 } ∧
    encStatus (s.raise .invalidInput) = some 1#2 ∧ decStatus (s.raise .truncated) = some 2#2 ∧
    decStatus (s.raise .overflow) = some 3#2 ∧
    outLen (s.raise .invalidInput) = none ∧ (∀ k, obufLane (s.raise .invalidInput) k = none) ∧
    valuePort (s.raise .truncated) = none ∧ consumedPort (s.raise .truncated) = none ∧
    valuePort (s.raise .overflow) = none ∧ consumedPort (s.raise .overflow) = none

/-- R151, R152, R153, R154: over every step of the machine, the Encoder enters `Failed` only at the
start of an ENCODE out of range, with cause 1; the Decoder only from a `Reading(i)`, with Truncated past
the buffer or, at group 4 alone, Overflow. -/
def Obligations.OnlyTheStatedCausesRaiseErrors : Prop :=
  ∀ s t : State, step s = .next t →
    (t.enc.phase = .failed → s.enc.phase ≠ .failed →
      t.enc.cause = 1#2 ∧ rangechk s.ports.encIn = false ∧ ∃ rest, s.inputs = .start 0b01#2 :: rest) ∧
    (t.dec.phase = .failed → s.dec.phase ≠ .failed →
      ∃ i : Fin 5, s.dec.phase = .reading i ∧
        ((t.dec.cause = 2#2 ∧ s.dec.len ≤ s.dec.off + i.val) ∨
          (t.dec.cause = 3#2 ∧ i.val = 4 ∧ s.dec.off + 4 < s.dec.len)))

/-- R20, R132, R159: the result of a call depends on its operands alone. Two states with the same ports
give the same results, whatever their registers held and whatever ran or failed before. -/
def Obligations.ResultsIgnoreEarlierCalls : Prop :=
  ∀ s s' t t' : State, s.ports = s'.ports →
    (exec .bytecount s = .next t → exec .bytecount s' = .next t' → bcResult t = bcResult t') ∧
    (exec .encode s = .next t → exec .encode s' = .next t' →
      ∀ k, encResult (encSteps k t) = encResult (encSteps k t')) ∧
    (exec .decode s = .next t → exec .decode s' = .next t' →
      ∀ k, decReads k t = decReads k t' ∧
        ∀ u, decSteps k t = .next u → ∃ u', decSteps k t' = .next u' ∧ decResult u = decResult u')

/-! ### Reset (10_state.md, 70_reset_and_hazards.md) -/

/-- R32: after reset both phases are `Idle` and no result port carries anything; R170: the host's reset
does the same from every state, an operation in flight included. The other registers' values are the
model's (log entry 1) and no clause names one. -/
def Obligations.ResetLeavesBothUnitsIdle : Prop :=
  (State.reset.enc.phase = .idle ∧ State.reset.dec.phase = .idle ∧
    encResult State.reset = none ∧ decResult State.reset = none ∧ bcResult State.reset = none) ∧
  ∀ (s : State) (rest : List HostMove), s.inputs = .reset :: rest →
    ∃ t : State, step s = .next t ∧ t.enc.phase = .idle ∧ t.dec.phase = .idle ∧
      encStatus t = none ∧ decStatus t = none ∧ encResult t = none ∧ decResult t = none ∧
      bcResult t = none ∧ t.ports = s.ports ∧ t.inputs = rest

/-! ### Invariants (10_state.md R33) -/

/-- R32, R33: the state after reset meets the invariant. That the ports start with an empty IBUF of
length 0, and that the offsets and lengths are 0, is the model's (log entry 1). -/
def Obligations.ResetMeetsTheInvariant : Prop :=
  State.reset.Inv ∧ State.reset.encCoherent ∧ ∀ w, State.reset.Fits w

/-- R33, R27: every step keeps the invariant of the phases, indices, causes and accumulator, the
canonical form of both byte spaces, and the host's duties. -/
def Obligations.StepKeepsTheInvariant : Prop :=
  ∀ s t : State, s.Inv → step s = .next t → t.Inv

/-- R22, R106, R109: every step keeps OBUF equal to the bytes of the value in flight written so far. -/
def Obligations.StepKeepsObufCoherent : Prop :=
  ∀ s t : State, s.Inv → s.encCoherent → step s = .next t → t.encCoherent

/-- R51 (2): an ENCODE shows all of its n bytes when the phase becomes `Done`, and none before. -/
def Obligations.ObufIsCompleteExactlyWhenDone : Prop :=
  ∀ s : State, s.Inv → s.encCoherent →
    (s.enc.phase = .done →
      encResult s = some (.ok (encodeBytes s.enc.val)) ∧
      ∀ k, obufLane s k = (encodeBytes s.enc.val)[k]?) ∧
    (s.enc.phase ≠ .done → outLen s = none ∧ ∀ k, obufLane s k = none)

/-- R4, R23, R41: at every `ADDR_W` the offsets and lengths of an instance of that width keep fitting it. -/
def Obligations.StepKeepsAddressWidth : Prop :=
  ∀ (w : Nat) (s t : State), s.Fits w → step s = .next t → t.Fits w

/-- R41, R157: a host that respects its duties never makes the machine read a byte that is not there. -/
def Obligations.DutifulHostsNeverCauseAFault : Prop :=
  ∀ s : State, s.Inv → s.stepSafe

/-! ### Frames and whole-machine rules -/

/-- R40, R70: a command changes its own unit only: no register, no byte of OBUF or IBUF, no port and no
later host move of anything else. -/
def Obligations.CommandsLeaveOtherUnitsAlone : Prop :=
  ∀ s t : State,
    (exec .bytecount s = .next t →
      t.enc = s.enc ∧ t.dec = s.dec ∧ t.ports = s.ports ∧ t.inputs = s.inputs ∧
      ∀ a, memRead t.enc.obuf a = memRead s.enc.obuf a ∧
        memRead t.ports.ibuf a = memRead s.ports.ibuf a) ∧
    (exec .encode s = .next t →
      t.ble = s.ble ∧ t.dec = s.dec ∧ t.ports = s.ports ∧ t.inputs = s.inputs ∧
      ∀ a, memRead t.ports.ibuf a = memRead s.ports.ibuf a ∧
        memRead t.enc.obuf a =
          if rangechk s.ports.encIn then none else memRead s.enc.obuf a) ∧
    (exec .decode s = .next t →
      t.ble = s.ble ∧ t.enc = s.enc ∧ t.ports = s.ports ∧ t.inputs = s.inputs ∧
      ∀ a, memRead t.enc.obuf a = memRead s.enc.obuf a ∧
        memRead t.ports.ibuf a = memRead s.ports.ibuf a)

/-- R40, R129: a DECODE group step that answers a next state changes the Decoder's registers only, never
its latched operands, and no byte of either space. -/
def Obligations.DecodeGroupStepFrame : Prop :=
  ∀ s t : State, decGroupStep s = .next t →
    t.enc = s.enc ∧ t.ble = s.ble ∧ t.ports = s.ports ∧ t.inputs = s.inputs ∧
    t.dec.off = s.dec.off ∧ t.dec.len = s.dec.len ∧
    ∀ a, memRead t.enc.obuf a = memRead s.enc.obuf a ∧ memRead t.ports.ibuf a = memRead s.ports.ibuf a

/-- R41, R174 (b): while a DECODE reads, no step changes IBUF, the operands on its ports or the ones it
latched (short of a reset, which abandons it), and a host that tries to drive them is refused. The
refusal is the model's (log entry 8). -/
def Obligations.InputIsStableDuringDecode : Prop :=
  (∀ (s t : State) (i : Fin 5), s.dec.phase = .reading i → step s = .next t →
    t.ports.ibuf = s.ports.ibuf ∧ t.ports.decLenIn = s.ports.decLenIn ∧
      t.ports.decOffIn = s.ports.decOffIn ∧
      ((∃ rest, s.inputs = .reset :: rest) ∨ (t.dec.off = s.dec.off ∧ t.dec.len = s.dec.len))) ∧
  ∀ (s : State) (i : Fin 5) (off len : Nat) (buf : Memory) (rest : List HostMove),
    s.dec.phase = .reading i → s.inputs = .driveDec off len buf :: rest →
    step s = .refused .ibufChangedDuringDecode

/-- R107, R130: `Done` and `Failed` hold, with every register of the unit, until the host starts that
unit again or resets the block. -/
def Obligations.TerminalPhasesHoldUntilTheNextStart : Prop :=
  ∀ s t : State, step s = .next t → (∀ rest, s.inputs ≠ .reset :: rest) →
    ((s.enc.phase = .done ∨ s.enc.phase = .failed) →
      (∀ rest, s.inputs ≠ .start 0b01#2 :: rest) → t.enc = s.enc) ∧
    ((s.dec.phase = .done ∨ s.dec.phase = .failed) →
      (∀ rest, s.inputs ≠ .start 0b10#2 :: rest) → t.dec = s.dec)

/-- R51, R163: an ENCODE group step and a DECODE group step may come in either order: the state after
both is the same, and the one never makes the other fail. Within one instance no run from reset has both
in flight (log entry 9), so there one of the two does nothing. -/
def Obligations.UnitStepsCommute : Prop :=
  ∀ s : State,
    (∀ t, decGroupStep s = .next t → decGroupStep (encGroupStep s) = .next (encGroupStep t)) ∧
    (∀ f, decGroupStep s = .fault f → decGroupStep (encGroupStep s) = .fault f)

/-- R175: with no host move to come, every operation in flight ends: the block is at rest after `j` ENCODE
and `k` DECODE group steps, each at most five, and none for a unit that is not in flight. No run from reset
has both units in flight (log entry 9); that the Encoder goes first in a state that does is the model's
(log entry 17). -/
def Obligations.OperationsEndWithinFiveGroupStepsEach : Prop :=
  ∀ s : State, s.Inv →
    ∃ (j k : Nat) (t : State), j ≤ 5 ∧ k ≤ 5 ∧ (s.encBusy = false → j = 0) ∧
      (s.decReading = false → k = 0) ∧ Host.Core.run core (j + k) (s.setInputs []) = .next t ∧
      decSteps k (encSteps j (s.setInputs [])) = .next t ∧ t.anyBusy = false ∧ step t = .next t

/-- R163: instances share no state: a step of one leaves every other as it was, and steps of two
different instances may come in either order with the same end. -/
def Obligations.InstancesAreIndependent : Prop :=
  (∀ (k : Nat) (all all' : List State), stepInstance k all = .next all' →
    all'.length = all.length ∧ ∀ j, j ≠ k → all'[j]? = all[j]?) ∧
  ∀ (j k : Nat) (all a b : List State), j ≠ k → stepInstance j all = .next a →
    stepInstance k all = .next b →
    ∃ c : List State, stepInstance k a = .next c ∧ stepInstance j b = .next c

/-- R51, R163: one operation runs at a time within one instance (log entry 9). No command is taken while a
unit is in flight, from a state with at most one unit in flight no step leads to one with two, and so no
run from reset has two in flight, whatever the host's moves. -/
def Obligations.OneOperationRunsAtATime : Prop :=
  State.reset.anyBusy = false ∧
  (∀ (i : Instr) (s t : State), exec i s = .next t → s.anyBusy = false) ∧
  (∀ s t : State, step s = .next t → s.encBusy = false ∨ s.decReading = false →
    t.encBusy = false ∨ t.decReading = false) ∧
  ∀ (moves : List HostMove) (k : Nat) (t : State),
    Host.Core.run core k (State.reset.setInputs moves) = .next t →
      t.encBusy = false ∨ t.decReading = false
end

