-- ==== Sys2Proof/Laws/State.lean ====
section
/-! SUPPORT. One lemma per field per update of State, so that no proof unfolds a record update. -/

namespace Sys2Proof.Machine

@[simp] theorem setBle_ble (s : State) (b : BleOut) : (s.setBle b).ble = b := rfl
@[simp] theorem setBle_enc (s : State) (b : BleOut) : (s.setBle b).enc = s.enc := rfl
@[simp] theorem setBle_dec (s : State) (b : BleOut) : (s.setBle b).dec = s.dec := rfl
@[simp] theorem setBle_ports (s : State) (b : BleOut) : (s.setBle b).ports = s.ports := rfl
@[simp] theorem setBle_inputs (s : State) (b : BleOut) : (s.setBle b).inputs = s.inputs := rfl

@[simp] theorem setEnc_ble (s : State) (e : EncRegs) : (s.setEnc e).ble = s.ble := rfl
@[simp] theorem setEnc_enc (s : State) (e : EncRegs) : (s.setEnc e).enc = e := rfl
@[simp] theorem setEnc_dec (s : State) (e : EncRegs) : (s.setEnc e).dec = s.dec := rfl
@[simp] theorem setEnc_ports (s : State) (e : EncRegs) : (s.setEnc e).ports = s.ports := rfl
@[simp] theorem setEnc_inputs (s : State) (e : EncRegs) : (s.setEnc e).inputs = s.inputs := rfl

@[simp] theorem setDec_ble (s : State) (d : DecRegs) : (s.setDec d).ble = s.ble := rfl
@[simp] theorem setDec_enc (s : State) (d : DecRegs) : (s.setDec d).enc = s.enc := rfl
@[simp] theorem setDec_dec (s : State) (d : DecRegs) : (s.setDec d).dec = d := rfl
@[simp] theorem setDec_ports (s : State) (d : DecRegs) : (s.setDec d).ports = s.ports := rfl
@[simp] theorem setDec_inputs (s : State) (d : DecRegs) : (s.setDec d).inputs = s.inputs := rfl

@[simp] theorem setPorts_ble (s : State) (p : Ports) : (s.setPorts p).ble = s.ble := rfl
@[simp] theorem setPorts_enc (s : State) (p : Ports) : (s.setPorts p).enc = s.enc := rfl
@[simp] theorem setPorts_dec (s : State) (p : Ports) : (s.setPorts p).dec = s.dec := rfl
@[simp] theorem setPorts_ports (s : State) (p : Ports) : (s.setPorts p).ports = p := rfl
@[simp] theorem setPorts_inputs (s : State) (p : Ports) : (s.setPorts p).inputs = s.inputs := rfl

@[simp] theorem setInputs_ble (s : State) (l : List HostMove) : (s.setInputs l).ble = s.ble := rfl
@[simp] theorem setInputs_enc (s : State) (l : List HostMove) : (s.setInputs l).enc = s.enc := rfl
@[simp] theorem setInputs_dec (s : State) (l : List HostMove) : (s.setInputs l).dec = s.dec := rfl
@[simp] theorem setInputs_ports (s : State) (l : List HostMove) : (s.setInputs l).ports = s.ports := rfl
@[simp] theorem setInputs_inputs (s : State) (l : List HostMove) : (s.setInputs l).inputs = l := rfl

/-- Later updates of one field win. -/
@[simp] theorem setDec_setDec (s : State) (d e : DecRegs) : (s.setDec d).setDec e = s.setDec e := rfl
@[simp] theorem setEnc_setEnc (s : State) (d e : EncRegs) : (s.setEnc d).setEnc e = s.setEnc e := rfl

/-- Writing back what a unit already holds changes nothing. -/
@[simp] theorem setEnc_self (s : State) : s.setEnc s.enc = s := rfl
@[simp] theorem setDec_self (s : State) : s.setDec s.dec = s := rfl

/-- Putting back the moves a start was popped from. -/
@[simp] theorem setInputs_self (s : State) : s.setInputs s.inputs = s := rfl
@[simp] theorem setInputs_setInputs (s : State) (l m : List HostMove) :
    (s.setInputs l).setInputs m = s.setInputs m := rfl

/-- An update of the Encoder and one of the Decoder do not meet. -/
theorem setEnc_setDec (s : State) (e : EncRegs) (d : DecRegs) :
    (s.setEnc e).setDec d = (s.setDec d).setEnc e := rfl

/-- Whether a unit is in flight depends on that unit's phase alone. -/
@[simp] theorem setInputs_encBusy (s : State) (l : List HostMove) :
    (s.setInputs l).encBusy = s.encBusy := rfl
@[simp] theorem setInputs_decReading (s : State) (l : List HostMove) :
    (s.setInputs l).decReading = s.decReading := rfl
@[simp] theorem setDec_encBusy (s : State) (d : DecRegs) : (s.setDec d).encBusy = s.encBusy := rfl
@[simp] theorem setEnc_decReading (s : State) (e : EncRegs) : (s.setEnc e).decReading = s.decReading := rfl

theorem encBusy_iff (s : State) : s.encBusy = true ↔ s.enc.phase = .busy := by
  simp [State.encBusy]

theorem decReading_iff (s : State) : s.decReading = true ↔ ∃ i, s.dec.phase = .reading i := by
  unfold State.decReading
  split <;> simp_all

theorem decReading_eq_false_iff (s : State) :
    s.decReading = false ↔ ∀ i, s.dec.phase ≠ .reading i := by
  rw [← Bool.not_eq_true, decReading_iff, not_exists]

/-- Whether a unit is in flight, command port and all, does not depend on the moves to come. -/
@[simp] theorem setInputs_anyBusy (s : State) (l : List HostMove) :
    (s.setInputs l).anyBusy = s.anyBusy := rfl

/-- A unit in flight makes its instance busy. -/
theorem anyBusy_of_inFlight {s : State} {u : UnitName} (h : s.inFlight u = true) : s.anyBusy = true := by
  cases u <;> simp_all [State.inFlight, State.anyBusy]

/-- A `start` is not refused exactly when no unit of the instance is in flight. -/
theorem startRefusal_eq_none_iff (s : State) (u : UnitName) :
    s.startRefusal u = none ↔ s.anyBusy = false := by
  unfold State.startRefusal
  split
  · simp [anyBusy_of_inFlight ‹_›]
  · cases s.anyBusy <;> simp

/-- A `start` that answers a next state found no unit in flight, and its effect is that state. -/
theorem startUnit_next {s t t' : State} {u : UnitName} (h : startUnit s u t = .next t') :
    s.anyBusy = false ∧ t' = t := by
  unfold startUnit at h
  split at h
  · cases h
  · cases h
    exact ⟨(startRefusal_eq_none_iff s u).mp ‹_›, rfl⟩

/-- A `start` takes effect when no unit of the instance is in flight. -/
theorem startUnit_of_free {s t : State} {u : UnitName} (h : s.anyBusy = false) :
    startUnit s u t = .next t := by
  simp [startUnit, (startRefusal_eq_none_iff s u).mpr h]

/-- A `start` of a unit in flight is refused (R165). -/
theorem startUnit_of_inFlight {s t : State} {u : UnitName} (hu : s.inFlight u = true) :
    startUnit s u t = .refused (.startWhileBusy u) := by
  simp [startUnit, State.startRefusal, hu]

/-- A `start` of a unit not in flight is refused while another one is (R51, R163). -/
theorem startUnit_of_instance_busy {s t : State} {u : UnitName} (hu : s.inFlight u = false)
    (h : s.anyBusy = true) : startUnit s u t = .refused (.startWhileInstanceBusy u) := by
  simp [startUnit, State.startRefusal, hu, h]

/-- An instance with no unit in flight, unit by unit. -/
theorem anyBusy_eq_false_iff (s : State) :
    s.anyBusy = false ↔ s.encBusy = false ∧ s.decReading = false := by
  simp [State.anyBusy]

/-- The raise of each cause, field by field (60_exceptions.md R158). -/
theorem raise_invalidInput (s : State) :
    s.raise .invalidInput = s.setEnc { s.enc with phase := .failed, cause := 1#2 } := rfl

theorem raise_truncated (s : State) :
    s.raise .truncated = s.setDec { s.dec with phase := .failed, cause := 2#2 } := rfl

theorem raise_overflow (s : State) :
    s.raise .overflow = s.setDec { s.dec with phase := .failed, cause := 3#2 } := rfl

end Sys2Proof.Machine
end

