-- ==== Sys2Proof/Laws/BitLength.lean ====
section
/-! SUPPORT. What the BitLengthEstimator's pieces say, once each (40_bitlength.md). -/

namespace Sys2Proof.Machine

theorem topBit_le (x : Word) (k : Nat) : topBit x k ≤ k := by
  induction k with
  | zero => simp [topBit]
  | succ k ih => unfold topBit; split <;> omega

/-- No bit above the top bit, up to the index the scan starts from, is set. -/
theorem topBit_above (x : Word) (k : Nat) {j : Nat} (h : topBit x k < j) (hj : j ≤ k) :
    x.getLsbD j = false := by
  induction k with
  | zero => simp only [topBit] at h; omega
  | succ k ih =>
    unfold topBit at h
    split at h
    · omega
    · rename_i hb
      rcases Nat.lt_or_eq_of_le hj with hlt | rfl
      · exact ih h (Nat.lt_succ_iff.mp hlt)
      · simpa using hb

/-- The top bit of a nonzero word is set. -/
theorem topBit_set {x : Word} (hx : x ≠ 0#32) (k : Nat) (hk : 31 ≤ k) :
    x.getLsbD (topBit x k) = true := by
  have key : ∀ k, (∃ j, j ≤ k ∧ x.getLsbD j = true) → x.getLsbD (topBit x k) = true := by
    intro k
    induction k with
    | zero => rintro ⟨j, hj, h⟩; simpa [topBit, Nat.le_zero.mp hj] using h
    | succ k ih =>
      rintro ⟨j, hj, h⟩
      unfold topBit
      split
      · assumption
      · rename_i hb
        refine ih ⟨j, ?_, h⟩
        rcases Nat.lt_or_eq_of_le hj with hlt | rfl
        · exact Nat.lt_succ_iff.mp hlt
        · exact absurd h hb
  by_contra hc
  refine hx (BitVec.eq_of_getLsbD_eq fun i hi => ?_)
  rw [BitVec.getLsbD_zero, ← Bool.not_eq_true]
  exact fun h => hc (key k ⟨i, by omega, h⟩)

/-- The top bit of a nonzero word is the floor of its binary logarithm. -/
theorem topBit_eq_log2 {x : Word} (hx : x ≠ 0#32) : topBit x 31 = Nat.log2 x.toNat := by
  have hlt : x.toNat < 2 ^ (topBit x 31 + 1) := by
    refine Nat.lt_pow_two_of_testBit _ fun j hj => ?_
    rw [BitVec.testBit_toNat]
    by_cases hj' : j ≤ 31
    · exact topBit_above x 31 (by omega) hj'
    · exact BitVec.getLsbD_of_ge x j (by omega)
  have hge : 2 ^ topBit x 31 ≤ x.toNat :=
    Nat.ge_two_pow_of_testBit (by rw [BitVec.testBit_toNat]; exact topBit_set hx 31 le_rfl)
  have hne : x.toNat ≠ 0 := fun h => hx (BitVec.eq_of_toNat_eq h)
  have h1 : Nat.log2 x.toNat < topBit x 31 + 1 := (Nat.log2_lt hne).mpr hlt
  have h2 : topBit x 31 ≤ Nat.log2 x.toNat := (Nat.le_log2 hne).mpr hge
  omega

/-- Every entry of the table is the bit-length divided by 7, rounded up. -/
theorem grouplut_toNat (b : Nat) (h : 1 ≤ b ∧ b ≤ Config.lutEntries) :
    (grouplut b h).toNat = (b + 6) / 7 := by
  have key : ∀ b : Fin 32, (groupLutTable[b.val]'(by rw [groupLutTable_length]; exact b.isLt)).toNat =
      (b.val + 7) / 7 := by decide
  have hb : b - 1 < 32 := by have := h.2; unfold Config.lutEntries at this; omega
  have hk := key ⟨b - 1, hb⟩
  simp only [grouplut]
  rw [hk]
  congr 1
  have := h.1
  simp only
  omega

end Sys2Proof.Machine
end

