-- ==== Sys2Proof/Laws/Decoder.lean ====
section
/-! SUPPORT. What the Decoder's shared operations can do, once each (42_decoder.md). -/

namespace Sys2Proof.Machine

/-- If a DECODE command answers a next state, no unit was in flight, and it is the start step. -/
theorem execDecode_next {s t : State} (h : execDecode s = .next t) :
    s.anyBusy = false ∧ t = decStart s := startUnit_next h

/-- The group limit applies at the fifth byte only. -/
theorem grplim_true (i : Fin 5) : grplim true i = decide (i.val = 4) := by
  revert i; decide

/-- Taking a byte is one of the outcomes 2 to 5 of R129, told apart by the overflow detector, the
continuation bit and the group. -/
theorem decTakeByte_cases (s : State) (i : Fin 5) (b : Byte) :
    let acc' := accUpdate s.dec.acc (dshift (contscan b).2 i)
    (ovfdet (contscan b).2 i = true ∧
      decTakeByte s i b = s.setDec { s.dec with acc := acc', phase := .failed, cause := 3#2 }) ∨
    (ovfdet (contscan b).2 i = false ∧ (contscan b).1 = false ∧
      decTakeByte s i b = s.setDec { s.dec with acc := acc', phase := .done }) ∨
    (ovfdet (contscan b).2 i = false ∧ (contscan b).1 = true ∧ i.val = 4 ∧
      decTakeByte s i b = s.setDec { s.dec with acc := acc', phase := .failed, cause := 3#2 }) ∨
    (ovfdet (contscan b).2 i = false ∧ (contscan b).1 = true ∧ i.val < 4 ∧
      decTakeByte s i b = s.setDec
        { s.dec with acc := acc', group := BitVec.ofNat 3 (i.val + 1), phase := .reading (i + 1) }) := by
  intro acc'
  unfold decTakeByte
  cases ho : ovfdet (contscan b).2 i
  · cases hc : (contscan b).1
    · exact .inr (.inl ⟨rfl, rfl, by simp [acc', ho]⟩)
    · by_cases h4 : i.val = 4
      · exact .inr (.inr (.inl ⟨rfl, rfl, h4, by simp [acc', ho, grplim_true i, decide_eq_true h4, raise_overflow]⟩))
      · exact .inr (.inr (.inr ⟨rfl, rfl, by omega, by simp [acc', ho, grplim_true i, h4]⟩))
  · exact .inl ⟨rfl, by simp [acc', ho, raise_overflow]⟩

/-- With no DECODE in flight a group step does nothing. -/
theorem decGroupStep_of_not_reading {s : State} (h : s.decReading = false) :
    decGroupStep s = .next s := by
  unfold decGroupStep
  cases hp : s.dec.phase <;> first | rfl | simp [State.decReading, hp] at h

/-- The index a DECODE in flight reads next: the bounds test of R120. -/
theorem decReadIndex_reading {s : State} {i : Fin 5} (h : s.dec.phase = .reading i) :
    decReadIndex s = if s.dec.off + i.val < s.dec.len then some (s.dec.off + i.val) else none := by
  simp [decReadIndex, h, bounds]

/-- A group step past the buffer raises Truncated. -/
theorem decGroupStep_past {s : State} {i : Fin 5} (h : s.dec.phase = .reading i)
    (hb : s.dec.len ≤ s.dec.off + i.val) : decGroupStep s = .next (s.raise .truncated) := by
  unfold decGroupStep
  simp [h, decReadIndex_reading h, Nat.not_lt.mpr hb]

/-- A group step inside the buffer takes the byte there. -/
theorem decGroupStep_within {s : State} {i : Fin 5} {b : Byte} (h : s.dec.phase = .reading i)
    (hb : s.dec.off + i.val < s.dec.len) (hm : memRead s.ports.ibuf (s.dec.off + i.val) = some b) :
    decGroupStep s = .next (decTakeByte s i b) := by
  unfold decGroupStep
  simp [h, decReadIndex_reading h, hb, hm]

/-- Everything a DECODE group step can answer: nothing to do, Truncated, a byte taken, or the fault for
a byte the host announced and did not supply. -/
theorem decGroupStep_cases (s : State) :
    (s.decReading = false ∧ decGroupStep s = .next s) ∨
    ∃ i : Fin 5, s.dec.phase = .reading i ∧
      ((s.dec.len ≤ s.dec.off + i.val ∧ decGroupStep s = .next (s.raise .truncated)) ∨
      (s.dec.off + i.val < s.dec.len ∧ ∃ b, memRead s.ports.ibuf (s.dec.off + i.val) = some b ∧
        decGroupStep s = .next (decTakeByte s i b)) ∨
      (s.dec.off + i.val < s.dec.len ∧ memRead s.ports.ibuf (s.dec.off + i.val) = none ∧
        decGroupStep s = .fault .ibufByteNotSupplied)) := by
  cases hr : s.decReading
  · exact .inl ⟨rfl, decGroupStep_of_not_reading hr⟩
  · obtain ⟨i, hi⟩ := (decReading_iff s).mp hr
    refine .inr ⟨i, hi, ?_⟩
    by_cases hb : s.dec.off + i.val < s.dec.len
    · cases hm : memRead s.ports.ibuf (s.dec.off + i.val) with
      | none => exact .inr (.inr ⟨hb, rfl, by simp [decGroupStep, hi, decReadIndex_reading hi, hb, hm]⟩)
      | some b => exact .inr (.inl ⟨hb, b, rfl, decGroupStep_within hi hb hm⟩)
    · exact .inl ⟨Nat.not_lt.mp hb, decGroupStep_past hi (Nat.not_lt.mp hb)⟩

/-- A byte taken changes the Decoder's registers only. -/
theorem decTakeByte_eq_setDec (s : State) (i : Fin 5) (b : Byte) :
    ∃ d : DecRegs, d.off = s.dec.off ∧ d.len = s.dec.len ∧ decTakeByte s i b = s.setDec d := by
  rcases decTakeByte_cases s i b with ⟨_, h⟩ | ⟨_, _, h⟩ | ⟨_, _, _, h⟩ | ⟨_, _, _, h⟩ <;>
    (refine ⟨_, ?_, ?_, h⟩ <;> rfl)

/-- A group step changes the Decoder's registers only, and never the operands it latched. -/
theorem decGroupStep_setDec {s t : State} (h : decGroupStep s = .next t) :
    ∃ d : DecRegs, d.off = s.dec.off ∧ d.len = s.dec.len ∧ t = s.setDec d := by
  rcases decGroupStep_cases s with ⟨_, h'⟩ | ⟨i, _, ⟨_, h'⟩ | ⟨_, b, _, h'⟩ | ⟨_, _, h'⟩⟩ <;>
    rw [h'] at h <;> cases h
  · exact ⟨_, rfl, rfl, (setDec_self s).symm⟩
  · refine ⟨_, ?_, ?_, raise_truncated s⟩ <;> rfl
  · exact decTakeByte_eq_setDec s i b

end Sys2Proof.Machine
end

