-- ==== Sys2Proof/Laws/Encoder.lean ====
section
/-! SUPPORT. What the Encoder's shared operations can do, once each (41_encoder.md). -/

namespace Sys2Proof.Machine

@[simp] theorem encStart_dec (s : State) : (encStart s).dec = s.dec := rfl
@[simp] theorem encStart_ble (s : State) : (encStart s).ble = s.ble := rfl
@[simp] theorem encStart_ports (s : State) : (encStart s).ports = s.ports := rfl
@[simp] theorem encStart_inputs (s : State) : (encStart s).inputs = s.inputs := rfl
@[simp] theorem encStart_phase (s : State) : (encStart s).enc.phase = .busy := rfl
@[simp] theorem encStart_val (s : State) : (encStart s).enc.val = encValuePart s.ports.encIn := rfl
@[simp] theorem encStart_n (s : State) :
    (encStart s).enc.n = bytecount (encValuePart s.ports.encIn) := rfl
@[simp] theorem encStart_i (s : State) : (encStart s).enc.i = 0#3 := rfl
@[simp] theorem encStart_obuf (s : State) : (encStart s).enc.obuf = [] := rfl
@[simp] theorem encStart_cause (s : State) : (encStart s).enc.cause = s.enc.cause := rfl

/-- If an ENCODE command answers a next state, no unit was in flight, and it is the start step or the
InvalidInput entry. -/
theorem execEncode_next {s t : State} (h : execEncode s = .next t) :
    s.anyBusy = false ∧
      ((rangechk s.ports.encIn = true ∧ t = encStart s) ∨
        (rangechk s.ports.encIn = false ∧ t = s.raise .invalidInput)) := by
  obtain ⟨hb, ht⟩ := startUnit_next h
  refine ⟨hb, ?_⟩
  cases hr : rangechk s.ports.encIn
  · exact .inr ⟨rfl, by simpa [hr] using ht⟩
  · exact .inl ⟨rfl, by simpa [hr] using ht⟩

/-- With no ENCODE in flight a group step does nothing. -/
theorem encGroupStep_of_not_busy {s : State} (h : s.encBusy = false) : encGroupStep s = s := by
  simp [encGroupStep, encWriteIndex, h]

/-- What a group step of an ENCODE in flight writes. -/
theorem encGroupStep_of_busy {s : State} (h : s.encBusy = true) :
    encGroupStep s = s.setEnc { s.enc with
      obuf := memWrite s.enc.obuf s.enc.i.toNat (encByte s.enc.val s.enc.n.toNat s.enc.i.toNat)
      i := s.enc.i + 1#3
      phase := if s.enc.i + 1#3 = s.enc.n then .done else .busy } := by
  simp [encGroupStep, encWriteIndex, h]

/-- A group step changes the Encoder's registers only. -/
theorem encGroupStep_eq_setEnc (s : State) : encGroupStep s = s.setEnc (encGroupStep s).enc := by
  cases h : s.encBusy
  · simp [encGroupStep_of_not_busy h]
  · rw [encGroupStep_of_busy h]; simp

@[simp] theorem encGroupStep_dec (s : State) : (encGroupStep s).dec = s.dec := by
  rw [encGroupStep_eq_setEnc]; simp
@[simp] theorem encGroupStep_ble (s : State) : (encGroupStep s).ble = s.ble := by
  rw [encGroupStep_eq_setEnc]; simp
@[simp] theorem encGroupStep_ports (s : State) : (encGroupStep s).ports = s.ports := by
  rw [encGroupStep_eq_setEnc]; simp
@[simp] theorem encGroupStep_inputs (s : State) : (encGroupStep s).inputs = s.inputs := by
  rw [encGroupStep_eq_setEnc]; simp

end Sys2Proof.Machine
end

