-- ==== Sys2Proof/Laws/Memory.lean ====
section
/-! SUPPORT. The byte spaces: a read after a write, the canonical form, and byte sequences
(20_memory.md R41, R42). -/

namespace Sys2Proof.Machine

@[simp] theorem memRead_nil (a : Nat) : memRead [] a = none := rfl

theorem memRead_memWrite_same (m : Memory) (a : Nat) (b : Byte) :
    memRead (memWrite m a b) a = some b := by
  induction m with
  | nil => simp [memWrite, memRead]
  | cons c m ih =>
    obtain ⟨a', b'⟩ := c
    unfold memWrite
    split
    · simp [memRead]
    · split
      · simp [memRead]
      · rename_i h1 h2
        simp [memRead, h2, ih]

theorem memRead_memWrite_other (m : Memory) {a a' : Nat} (b : Byte) (h : a' ≠ a) :
    memRead (memWrite m a b) a' = memRead m a' := by
  induction m with
  | nil => simp [memWrite, memRead, h]
  | cons c m ih =>
    obtain ⟨x, y⟩ := c
    unfold memWrite
    split
    · simp [memRead, h]
    · split
      · rename_i h2
        subst h2
        simp [memRead, h]
      · simp only [memRead, ih]

/-- Every index a write leaves listed was listed before or is the one written. -/
theorem mem_memWrite {m : Memory} {a : Nat} {b : Byte} {c : Host.Cell}
    (h : c ∈ memWrite m a b) : c = (a, b) ∨ c ∈ m := by
  induction m with
  | nil => simpa [memWrite] using h
  | cons d m ih =>
    obtain ⟨x, y⟩ := d
    unfold memWrite at h
    split at h
    · simpa using h
    · split at h
      · simp only [List.mem_cons] at h ⊢
        tauto
      · simp only [List.mem_cons] at h ⊢
        rcases h with h | h
        · exact .inr (.inl h)
        · rcases ih h with h | h
          · exact .inl h
          · exact .inr (.inr h)

/-- A write keeps the canonical form. -/
theorem memWrite_wf {m : Memory} (h : Memory.wf m) (a : Nat) (b : Byte) : Memory.wf (memWrite m a b) := by
  induction m with
  | nil => simp [memWrite, Memory.wf]
  | cons d m ih =>
    obtain ⟨x, y⟩ := d
    obtain ⟨hx, hm⟩ := List.pairwise_cons.mp h
    unfold memWrite
    split
    · rename_i hlt
      refine List.pairwise_cons.mpr ⟨fun c hc => ?_, h⟩
      rcases List.mem_cons.mp hc with rfl | hc
      · exact hlt
      · exact lt_trans hlt (hx c hc)
    · split
      · rename_i heq
        subst heq
        exact List.pairwise_cons.mpr ⟨hx, hm⟩
      · rename_i hlt hne
        refine List.pairwise_cons.mpr ⟨fun c hc => ?_, ih hm⟩
        rcases mem_memWrite hc with rfl | hc
        · exact lt_of_le_of_ne (Nat.not_lt.mp hlt) (Ne.symm hne)
        · exact hx c hc

theorem mem_memOfBytesFrom {bs : List Byte} {k : Nat} {c : Host.Cell}
    (h : c ∈ memOfBytesFrom k bs) : k ≤ c.1 := by
  induction bs generalizing k with
  | nil => simp [memOfBytesFrom] at h
  | cons b bs ih =>
    rcases List.mem_cons.mp h with rfl | h
    · exact le_rfl
    · exact Nat.le_of_succ_le (ih h)

theorem memOfBytesFrom_wf (k : Nat) (bs : List Byte) : Memory.wf (memOfBytesFrom k bs) := by
  induction bs generalizing k with
  | nil => simp [memOfBytesFrom, Memory.wf]
  | cons b bs ih => exact List.pairwise_cons.mpr ⟨fun c hc => mem_memOfBytesFrom hc, ih (k + 1)⟩

/-- The byte space of a sequence of bytes is in canonical form. -/
theorem memOfBytes_wf (bs : List Byte) : Memory.wf (memOfBytes bs) := memOfBytesFrom_wf 0 bs

/-- Both byte spaces have the canonical form after reset. -/
theorem reset_memory_wf : Memory.wf State.reset.enc.obuf ∧ Memory.wf State.reset.ports.ibuf := by decide

theorem memRead_memOfBytesFrom (bs : List Byte) (k a : Nat) :
    memRead (memOfBytesFrom k bs) (k + a) = bs[a]? := by
  induction bs generalizing k a with
  | nil => simp [memOfBytesFrom]
  | cons b bs ih =>
    cases a with
    | zero => simp [memOfBytesFrom, memRead]
    | succ a =>
      have h := ih (k + 1) a
      rw [Nat.add_right_comm] at h
      simpa [memOfBytesFrom, memRead, Nat.add_assoc] using h

/-- The byte space of a sequence holds its byte `a` at index `a`, and nothing past its end. -/
@[simp] theorem memRead_memOfBytes (bs : List Byte) (a : Nat) : memRead (memOfBytes bs) a = bs[a]? := by
  simpa [memOfBytes] using memRead_memOfBytesFrom bs 0 a

theorem memWrite_memOfBytesFrom (bs : List Byte) (k : Nat) (b : Byte) :
    memWrite (memOfBytesFrom k bs) (k + bs.length) b = memOfBytesFrom k (bs ++ [b]) := by
  induction bs generalizing k with
  | nil => simp [memOfBytesFrom, memWrite]
  | cons c bs ih =>
    have h := ih (k + 1)
    rw [Nat.add_right_comm] at h
    simpa [memOfBytesFrom, memWrite, Nat.add_assoc] using h

/-- Writing at the first free index of a sequence appends to it. -/
theorem memWrite_memOfBytes (bs : List Byte) (b : Byte) :
    memWrite (memOfBytes bs) bs.length b = memOfBytes (bs ++ [b]) := by
  simpa [memOfBytes] using memWrite_memOfBytesFrom bs 0 b

/-- Reading a stored sequence back in order gives it. -/
@[simp] theorem memBytes_memOfBytes (bs : List Byte) : memBytes (memOfBytes bs) bs.length = bs := by
  have h : ∀ l : List Byte, (List.range l.length).filterMap (fun a => l[a]?) = l := by
    intro l
    induction l using List.reverseRecOn with
    | nil => rfl
    | append_singleton l b ih =>
      rw [List.length_append, List.length_singleton, List.range_succ, List.filterMap_append]
      congr 1
      · conv_rhs => rw [← ih]
        refine List.filterMap_congr fun a ha => ?_
        rw [List.getElem?_append_left (List.mem_range.mp ha)]
      · simp
  simpa [memBytes, Function.comp_def] using h bs

/-- Two byte spaces in canonical form that read alike are the same data. -/
theorem memory_ext {m m' : Memory} (h : Memory.wf m) (h' : Memory.wf m')
    (hr : ∀ a, memRead m a = memRead m' a) : m = m' := by
  have low : ∀ {l : Memory} {x : Nat} {a : Nat}, (∀ c ∈ l, x < c.1) → a ≤ x → memRead l a = none := by
    intro l
    induction l with
    | nil => intros; rfl
    | cons d l ih =>
      intro x a hl ha
      obtain ⟨y, b⟩ := d
      have hy := hl _ List.mem_cons_self
      have hne : a ≠ y := by simp only at hy; omega
      simpa [memRead, hne] using ih (fun c hc => hl c (List.mem_cons_of_mem _ hc)) ha
  induction m generalizing m' with
  | nil =>
    cases m' with
    | nil => rfl
    | cons d m' => simpa [memRead] using hr d.1
  | cons d m ih =>
    obtain ⟨x, b⟩ := d
    obtain ⟨hx, hm⟩ := List.pairwise_cons.mp h
    cases m' with
    | nil => simpa [memRead] using hr x
    | cons e m' =>
      obtain ⟨y, c⟩ := e
      obtain ⟨hy, hm'⟩ := List.pairwise_cons.mp h'
      have hxy : x = y := by
        rcases lt_trichotomy x y with hlt | heq | hlt
        · have := hr x
          rw [show memRead ((y, c) :: m') x = memRead m' x by simp [memRead, hlt.ne],
            low hy hlt.le] at this
          simp [memRead] at this
        · exact heq
        · have := hr y
          rw [show memRead ((x, b) :: m) y = memRead m y by simp [memRead, hlt.ne],
            low hx hlt.le] at this
          simp [memRead] at this
      subst hxy
      have hbc : b = c := by simpa [memRead] using hr x
      subst hbc
      refine congrArg _ (ih hm hm' fun a => ?_)
      by_cases ha : a = x
      · rw [ha, low hx le_rfl, low hy le_rfl]
      · simpa [memRead, ha] using hr a

end Sys2Proof.Machine
end

