-- ==== Sys2Proof/Laws/PerInstr.lean ====
section
/-! SUPPORT. Facts about every command as syntax, one lemma per constructor. -/

namespace Sys2Proof.Laws.OneByteCommand

/-- A command is one byte long ("one format and one length", 30_encoding.md R67), and the bits its
command word does not use are 0. -/
def Statement (i : Instr) : Prop :=
  (encode i).length = 1 ∧ ∀ b ∈ encode i, b &&& 0xFC#8 = 0#8

theorem bytecount : Statement .bytecount := by unfold Statement; decide
theorem encode : Statement .encode := by unfold Statement; decide
theorem decode : Statement .decode := by unfold Statement; decide
theorem reserved3 : Statement .reserved3 := by unfold Statement; decide

end Sys2Proof.Laws.OneByteCommand
end

