-- ==== Sys2Proof/Laws/Step.lean ====
section
/-! SUPPORT. Everything one step of the machine can do, said once (70_reset_and_hazards.md R177). -/

namespace Sys2Proof.Machine

/-- If the block left alone answers a next state, it is an ENCODE group step or a DECODE group step. -/
theorem autoStep_next {s t : State} (h : autoStep s = .next t) :
    (s.encBusy = true ∧ t = encGroupStep s) ∨ (s.encBusy = false ∧ decGroupStep s = .next t) := by
  unfold autoStep at h
  split at h <;> rename_i hb
  · cases h; exact .inl ⟨hb, rfl⟩
  · exact .inr ⟨by simpa using hb, h⟩

/-- If a command answers a next state, no unit was in flight, and it is the BYTECOUNT result, an ENCODE
start, the InvalidInput entry or a DECODE start. -/
theorem exec_next {i : Instr} {s t : State} (h : exec i s = .next t) : s.anyBusy = false ∧ (
    (i = .bytecount ∧ t = s.setBle { count := bytecount s.ports.bleIn, started := true }) ∨
    (i = .encode ∧ rangechk s.ports.encIn = true ∧ t = encStart s) ∨
    (i = .encode ∧ rangechk s.ports.encIn = false ∧ t = s.raise .invalidInput) ∨
    (i = .decode ∧ t = decStart s)) := by
  cases i with
  | bytecount =>
    obtain ⟨hp, ht⟩ := startUnit_next h
    exact ⟨hp, .inl ⟨rfl, ht⟩⟩
  | encode =>
    obtain ⟨hp, ⟨hr, ht⟩ | ⟨hr, ht⟩⟩ := execEncode_next h
    · exact ⟨hp, .inr (.inl ⟨rfl, hr, ht⟩)⟩
    · exact ⟨hp, .inr (.inr (.inl ⟨rfl, hr, ht⟩))⟩
  | decode =>
    obtain ⟨hp, ht⟩ := execDecode_next h
    exact ⟨hp, .inr (.inr (.inr ⟨rfl, ht⟩))⟩
  | reserved3 => cases h

/-- If a step answers a next state, it is one of these: a group step of a unit (by the block itself, a
grant or a wait), the end of a wait, ports driven, a command run, or a reset. Each but the first two
takes the host's next move off its list, and a grant does too. -/
theorem step_cases {s t : State} (h : step s = .next t) :
    (∃ l, s.encBusy = true ∧ t = encGroupStep (s.setInputs l) ∧ (∀ m ∈ l, m ∈ s.inputs) ∧
      (∀ op rest, s.inputs ≠ .start op :: rest) ∧ ∀ rest, s.inputs ≠ .reset :: rest) ∨
    (∃ l, decGroupStep (s.setInputs l) = .next t ∧ (∀ m ∈ l, m ∈ s.inputs) ∧
      (∀ op rest, s.inputs ≠ .start op :: rest) ∧ ∀ rest, s.inputs ≠ .reset :: rest) ∨
    (∃ l, t = s.setInputs l ∧ (∀ m ∈ l, m ∈ s.inputs) ∧
      (∀ op rest, s.inputs ≠ .start op :: rest) ∧ ∀ rest, s.inputs ≠ .reset :: rest) ∨
    (∃ v rest, s.inputs = .driveBle v :: rest ∧
      t = (s.setInputs rest).setPorts { s.ports with bleIn := v }) ∨
    (∃ x rest, s.inputs = .driveEnc x :: rest ∧
      t = (s.setInputs rest).setPorts { s.ports with encIn := x }) ∨
    (∃ off len buf rest, s.inputs = .driveDec off len buf :: rest ∧ s.decReading = false ∧
      t = (s.setInputs rest).setPorts { s.ports with decOffIn := off, decLenIn := len, ibuf := buf }) ∨
    (∃ op rest, s.inputs = .start op :: rest ∧ exec (decodeOp op) (s.setInputs rest) = .next t) ∨
    (∃ rest, s.inputs = .reset :: rest ∧ t = resetUnits (s.setInputs rest)) := by
  have sub : ∀ {m : HostMove} {rest : List HostMove}, s.inputs = m :: rest → ∀ x ∈ rest, x ∈ s.inputs :=
    fun he x hx => he ▸ List.mem_cons_of_mem _ hx
  have auto : autoStep s = .next t →
      (∃ l, s.encBusy = true ∧ t = encGroupStep (s.setInputs l) ∧ l = s.inputs) ∨
      (∃ l, decGroupStep (s.setInputs l) = .next t ∧ l = s.inputs) := by
    intro ha
    rcases autoStep_next ha with ⟨hb, ht⟩ | ⟨_, ht⟩
    · exact .inl ⟨_, hb, by simpa using ht, rfl⟩
    · exact .inr ⟨_, by simpa using ht, rfl⟩
  cases hs : s.inputs with
  | nil =>
    have h' : autoStep s = .next t := by simpa [step, hs] using h
    rcases auto h' with ⟨l, hb, ht, rfl⟩ | ⟨l, ht, rfl⟩
    · exact .inl ⟨s.inputs, hb, ht, by simp [hs], by simp, by simp⟩
    · exact .inr (.inl ⟨s.inputs, ht, by simp [hs], by simp, by simp⟩)
  | cons m rest =>
    have hsub := sub hs
    rw [hs] at hsub
    cases m with
    | driveBle v =>
      have h' : t = driveBitLength (s.setInputs rest) v := by simpa [step, hs] using h.symm
      exact .inr (.inr (.inr (.inl ⟨v, rest, rfl, by simpa [driveBitLength] using h'⟩)))
    | driveEnc x =>
      have h' : t = driveEncoder (s.setInputs rest) x := by simpa [step, hs] using h.symm
      exact .inr (.inr (.inr (.inr (.inl ⟨x, rest, rfl, by simpa [driveEncoder] using h'⟩))))
    | driveDec off len buf =>
      have h' : driveDecoder (s.setInputs rest) off len buf = .next t := by simpa [step, hs] using h
      unfold driveDecoder at h'
      split at h'
      · cases h'
      · rename_i hr
        refine .inr (.inr (.inr (.inr (.inr (.inl ⟨off, len, buf, rest, rfl, ?_, ?_⟩)))))
        · simpa using hr
        · simpa using h'.symm
    | start op =>
      exact .inr (.inr (.inr (.inr (.inr (.inr (.inl ⟨op, rest, rfl, by simpa [step, hs] using h⟩))))))
    | grantEnc =>
      have h' : t = encGroupStep (s.setInputs rest) := by simpa [step, hs] using h.symm
      cases hb : s.encBusy
      · rw [encGroupStep_of_not_busy (by simpa using hb)] at h'
        exact .inr (.inr (.inl ⟨rest, h', hsub, by simp, by simp⟩))
      · exact .inl ⟨rest, rfl, h', hsub, by simp, by simp⟩
    | grantDec =>
      exact .inr (.inl ⟨rest, by simpa [step, hs] using h, hsub, by simp, by simp⟩)
    | await =>
      have h' : awaitStep s rest = .next t := by simpa [step, hs] using h
      unfold awaitStep at h'
      split at h'
      · rcases auto h' with ⟨l, hb, ht, rfl⟩ | ⟨l, ht, rfl⟩
        · exact .inl ⟨s.inputs, hb, ht, by simp [hs], by simp, by simp⟩
        · exact .inr (.inl ⟨s.inputs, ht, by simp [hs], by simp, by simp⟩)
      · cases h'
        exact .inr (.inr (.inl ⟨rest, rfl, hsub, by simp, by simp⟩))
    | reset =>
      exact .inr (.inr (.inr (.inr (.inr (.inr (.inr ⟨rest, rfl, by simpa [step, hs] using h.symm⟩))))))

end Sys2Proof.Machine
end

