-- ==== Sys2Proof/Tests/Slice0.lean ====
section
/-! SUPPORT. The model's own tests (expected values from spec/95_test_vectors.md and the rules named)
and, for every statement with hypotheses, a witness that its hypotheses can be met. -/

namespace Sys2Proof.Tests

open Sys2Proof Sys2Proof.Machine

/-! ### Syntax and decoding -/

/-- 30_encoding.md R69: the reserved code spells no operation. -/
theorem test_reserved_is_ill_formed : Instr.wf .reserved3 = false := by decide

theorem test_operations_are_well_formed :
    Instr.wf .bytecount = true ∧ Instr.wf .encode = true ∧ Instr.wf .decode = true := by decide

/-- R67, table of `op`, bit by bit. -/
theorem test_decode_table_words :
    decodeTableWord 8 0b00000000 = some .bytecount ∧ decodeTableWord 8 0b00000001 = some .encode ∧
    decodeTableWord 8 0b00000010 = some .decode ∧ decodeTableWord 8 0b00000011 = some .reserved3 := by
  decide

theorem test_no_bytes_is_no_command : decodeTableWord 0 2 = none := by decide

/-! ### Small states -/

/-- A block just reset whose ports hold these operands and whose host has these moves to make. -/
def block (x : Int) (buf : List Byte) (off : Nat) (moves : List HostMove) : State :=
  (State.reset.setPorts
    { bleIn := BitVec.ofInt 32 x
      encIn := BitVec.ofInt 64 x
      decOffIn := off
      decLenIn := buf.length
      ibuf := memOfBytes buf }).setInputs moves

/-- That block with a DECODE of its buffer in `Reading(i)`. -/
def reading (buf : List Byte) (i : Fin 5) (acc : Word) : State :=
  (block 0 buf 0 []).setDec
    { DecRegs.reset with
      acc := acc
      group := BitVec.ofNat 3 i.val
      len := buf.length
      phase := .reading i }

/-- That block with an ENCODE of 300 that has written its first byte (trace V-E40). -/
def encoding : State :=
  (block 300 [] 0 []).setEnc
    { val := 300#32, n := 2#3, i := 1#3, obuf := [(0, 0xAC#8)], phase := .busy, cause := 0#2 }

/-- The same ENCODE at its end (V-E40). -/
def encoded : State :=
  (block 300 [] 0 []).setEnc
    { val := 300#32, n := 2#3, i := 2#3, obuf := [(0, 0xAC#8), (1, 0x02#8)], phase := .done, cause := 0#2 }

/-- The state of a next outcome, the given one otherwise. -/
def nextOr (d : State) : Host.Outcome State Fault Refusal → State
  | .next t => t
  | .fault _ => d
  | .refused _ => d

/-! ### One vector test and one step test for each instruction -/

/-- V-B1 to V-B21: the byte counts of the table of section 2.1, the boundaries of S12 to S16 among them. -/
theorem test_bytecount_vectors :
    [0x00000000#32, 0x00000001#32, 0x0000003F#32, 0x00000040#32, 0x0000007F#32, 0x00000080#32,
      0x0000012C#32, 0x00003FFF#32, 0x00004000#32, 0x001FFFFF#32, 0x00200000#32, 0x0FFFFFFF#32,
      0x10000000#32, 0x80000000#32, 0xFFFFFFFF#32].map (fun v => (bytecount v).toNat) =
      [1, 1, 1, 1, 1, 2, 2, 2, 3, 3, 4, 4, 5, 5, 5] := by decide

/-- `BYTECOUNT 300 => 2` (R84), as the first step of a block after reset. -/
theorem test_bytecount_step :
    bcResult (nextOr State.reset (step ((block 300 [] 0 []).withFetchWord 8 0))) = some 2#3 := by decide

/-- S1 to S11, S20, S21 and V-E30, V-E35, V-E38. -/
theorem test_encode_vectors :
    [0, 1, 127, 128, 16383, 16384, 2097151, 2097152, 268435455, 268435456, 4294967295, -1, 4294967296,
      624485, 0xDEADBEEF, -4294967296].map (fun x => encodeTx (BitVec.ofInt 64 x)) =
      [.ok [0x00], .ok [0x01], .ok [0x7F], .ok [0x80, 0x01], .ok [0xFF, 0x7F], .ok [0x80, 0x80, 0x01],
        .ok [0xFF, 0xFF, 0x7F], .ok [0x80, 0x80, 0x80, 0x01], .ok [0xFF, 0xFF, 0xFF, 0x7F],
        .ok [0x80, 0x80, 0x80, 0x80, 0x01], .ok [0xFF, 0xFF, 0xFF, 0xFF, 0x0F], .err .invalidInput,
        .err .invalidInput, .ok [0xE5, 0x8E, 0x26], .ok [0xEF, 0xFD, 0xB6, 0xF5, 0x0D],
        .err .invalidInput] := by decide

/-- V-E40, step 2: `OBUF[1] <- 0x02`, `Done`, `out_len = 2`. -/
theorem test_encode_group_step : step encoding = .next encoded := by rfl

/-- S18, S19, V-D9, V-D11, V-D12, V-D14 to V-D16, V-D18 to V-D20, V-D22, V-D24, V-D28. -/
theorem test_decode_vectors :
    [[0x80], [0xFF, 0xFF, 0xFF, 0xFF, 0x1F], [0xFF, 0xFF, 0xFF, 0x7F], [0xFF, 0xFF, 0xFF, 0xFF, 0x0F],
      [], [0x80, 0x80, 0x80, 0x80, 0x80], [0x80, 0x80, 0x80, 0x80, 0x80, 0x00], [0x80, 0x80, 0x80, 0x80],
      [0xFF, 0xFF, 0xFF, 0xFF, 0x10], [0xFF, 0xFF, 0xFF, 0xFF, 0x8F], [0x80, 0x00], [0xFF, 0x80, 0x00],
      [0x01, 0xFF], [0xAC, 0x02]].map (fun b => decodeTx b) =
      [.err .truncated, .err .overflow, .ok 268435455 4, .ok 4294967295 5, .err .truncated,
        .err .overflow, .err .overflow, .err .truncated, .err .overflow, .err .overflow, .ok 0 2,
        .ok 127 3, .ok 1 1, .ok 300 2] := by decide

/-- V-D40, step 3: from `Reading(2)` with `acc` 0x765 the byte 0x26 gives value 624485, 3 consumed. -/
theorem test_decode_group_step :
    decResult (nextOr State.reset (step (reading [0xE5, 0x8E, 0x26] 2 0x765))) =
      some (.ok 624485 3) := by decide

/-- R73: the script operand is presented as a 64-bit two's-complement integer, and one that does not fit
has no script. -/
theorem test_script_encode_operand :
    scriptEncode (-1) = some [.driveEnc 0xFFFFFFFFFFFFFFFF#64, .start 0b01#2, .await] ∧
      scriptEncode (2 ^ 64 + 5) = none := by decide

/-- P3, line 9: the reserved code after reset is refused by name. -/
theorem test_reserved_step : step (State.reset.withFetchWord 8 3) = .refused .reservedOp := by rfl

/-- P2, lines 6 to 11: a packed stream, read with a moving offset. -/
theorem test_decode_packed_stream :
    [0, 1, 3, 6, 7, 12].map (fun o => decodeTx
      [0x01, 0xAC, 0x02, 0xE5, 0x8E, 0x26, 0x00, 0xFF, 0xFF, 0xFF, 0xFF, 0x0F] o) =
      [.ok 1 1, .ok 300 2, .ok 624485 3, .ok 0 1, .ok 4294967295 5, .err .truncated] := by decide

/-! ### Invariants of the small states, for the witnesses -/

theorem encoding_inv : encoding.Inv where
  enc :=
    { obufWf := by decide
      busy := fun _ => ⟨by decide, by decide, by decide, fun a => by
        show (memRead [(0, 0xAC#8)] a).isSome = true ↔ a < 1
        by_cases h : a = 0 <;> simp [memRead, h]⟩
      done := fun h => by cases h
      failed := fun h => by cases h }
  dec :=
    { reading := fun i h => by cases h
      done := fun h => by cases h
      failed := fun h => by cases h }
  host :=
    { ibufWf := by decide
      supplied := by decide
      stable := by decide
      inputs := fun m hm => by cases hm }

theorem encoded_inv : encoded.Inv where
  enc :=
    { obufWf := by decide
      busy := fun h => by cases h
      done := fun _ => ⟨rfl, by decide, by decide, fun a => by
        show (memRead [(0, 0xAC#8), (1, 0x02#8)] a).isSome = true ↔ a < 2
        by_cases h : a = 0
        · simp [memRead, h]
        · by_cases h1 : a = 1 <;> simp [memRead, h, h1]
          omega⟩
      failed := fun h => by cases h }
  dec :=
    { reading := fun i h => by cases h
      done := fun h => by cases h
      failed := fun h => by cases h }
  host :=
    { ibufWf := by decide
      supplied := by decide
      stable := by decide
      inputs := fun m hm => by cases hm }

theorem encoding_coherent : encoding.encCoherent := fun _ => ⟨by decide, by decide⟩

theorem encoded_coherent : encoded.encCoherent := fun _ => ⟨by decide, by decide⟩

theorem reading_fits : (reading [0x80] 0 0).Fits 2 where
  offIn := by decide
  lenIn := by decide
  off := by decide
  len := by decide
  inputs := fun m hm => by cases hm

/-! ### Witnesses -/

theorem witness_StepRunsThePresentedCommand :
    (block 300 [] 0 [.start 1]).inputs = .start 1 :: [] ∧ decodeTableWord 8 3 = some .reserved3 := by
  decide

theorem witness_StepWithoutStartIsAGroupStepOrAWait :
    (encoding.inputs = [] ∧ encoding.enc.phase = .busy) ∧
    ((reading [0x80] 0 0).inputs = [] ∧ (reading [0x80] 0 0).enc.phase ≠ .busy) ∧
    (encoded.inputs = [] ∧ encoded.enc.phase ≠ .busy ∧ ∀ i, encoded.dec.phase ≠ .reading i) ∧
    (block 0 [] 0 [.grantEnc]).inputs = .grantEnc :: [] ∧
    (block 0 [] 0 [.grantDec]).inputs = .grantDec :: [] ∧
    ((encoding.setInputs [.await]).inputs = .await :: [] ∧ (encoding.setInputs [.await]).enc.phase = .busy) ∧
    (((reading [0x80] 0 0).setInputs [.await]).inputs = .await :: [] ∧
      ((reading [0x80] 0 0).setInputs [.await]).enc.phase ≠ .busy ∧
      ∃ i, ((reading [0x80] 0 0).setInputs [.await]).dec.phase = .reading i) ∧
    ((encoded.setInputs [.await]).inputs = .await :: [] ∧ (encoded.setInputs [.await]).enc.phase ≠ .busy ∧
      ∀ i, (encoded.setInputs [.await]).dec.phase ≠ .reading i) := by decide

theorem witness_HostMovesDriveTheOperandPorts :
    (block 0 [] 0 [.driveBle 7]).inputs = .driveBle 7 :: [] ∧
    (block 0 [] 0 [.driveEnc 7]).inputs = .driveEnc 7 :: [] ∧
    ((block 0 [] 0 [.driveDec 0 1 [(0, 5#8)]]).inputs = .driveDec 0 1 [(0, 5#8)] :: [] ∧
      ∀ i, (block 0 [] 0 [.driveDec 0 1 [(0, 5#8)]]).dec.phase ≠ .reading i) := by decide

theorem witness_ReservedCodeIsRefused :
    (block 0 [] 0 [.start 0b11#2]).inputs = .start 0b11#2 :: [] := by decide

theorem witness_ClzCountsLeadingZeros :
    clz32 1#32 (by decide) = 31 ∧ clz32 0x80000000#32 (by decide) = 0 ∧ 31 - clz32 1#32 (by decide) < 1 := by
  decide

theorem witness_ZeroGuardSetsBitZeroOnly : (128#32 : Word) ≠ 0#32 := by decide

theorem witness_BitlenIsHighestBitPlusOne : (1#32 : Word) ≠ 0#32 ∧ (0xFFFFFFFF#32 : Word) ≠ 0#32 := by
  decide

theorem witness_GroupTableEntries :
    (grouplut 1 (by decide)).toNat = 1 ∧ (grouplut 7 (by decide)).toNat = 1 ∧
    (grouplut 8 (by decide)).toNat = 2 ∧ (grouplut 32 (by decide)).toNat = 5 := by decide

theorem witness_BytecountClosedForms :
    1 ≤ 2 ∧ (128#32).toNat < 2 ^ (7 * 2) ∧ ¬(128#32).toNat < 2 ^ (7 * 1) := by decide

theorem witness_BytecountBoundaries : (127#32).toNat ≤ (128#32).toNat := by decide

/-- The narrowest width allowed, with -1 and 4294967296 told apart from the operands in range. -/
theorem witness_RangeCheckAcceptsExactlyUint32 :
    34 ≤ 34 ∧ rangechk (BitVec.ofInt 34 4294967295) = true ∧ rangechk (BitVec.ofInt 34 4294967296) = false ∧
      rangechk (BitVec.ofInt 34 (-1)) = false := by decide

theorem witness_GroupShifterTakesSevenBits :
    (4 ≤ 4 ∧ 3 < 7 ∧ 7 * 4 + 3 ≤ 31) ∧ (4 < 7 ∧ ¬7 * 4 + 4 ≤ 31) ∧ (bytecount 127#32).toNat ≤ 1 := by decide

theorem witness_EncodeStartStep :
    encoding.enc.phase = .busy ∧
    ((block (-1) [] 0 []).enc.phase ≠ .busy ∧ (block (-1) [] 0 []).anyBusy = false ∧
      rangechk (block (-1) [] 0 []).ports.encIn = false) ∧
    ((block 4294967295 [] 0 []).enc.phase ≠ .busy ∧ (block 4294967295 [] 0 []).anyBusy = false ∧
      rangechk (block 4294967295 [] 0 []).ports.encIn = true) := by decide

theorem witness_EncodeGroupStepWritesOneByte :
    encoding.enc.phase = .busy ∧ encoding.inputs = [] ∧ encoding.decReading = false ∧ 0 ≠ encoding.enc.i.toNat := by decide

theorem witness_EncodeRunGivesTransactionResult :
    (block 4294967296 [] 0 []).enc.phase ≠ .busy ∧ (block 4294967296 [] 0 []).anyBusy = false ∧ rangechk (block 4294967296 [] 0 []).ports.encIn = false ∧
    rangechk (block 0 [] 0 []).ports.encIn = true ∧
    0 < (bytecount (encValuePart (block 0 [] 0 []).ports.encIn)).toNat := by decide

theorem witness_EncodedBytesAreCanonical :
    (encodeBytes 300#32)[0]? = some 0xAC#8 ∧ (encodeBytes 300#32).getLast? = some 0x02#8 ∧
    (300#32 : Word) ≠ 0#32 ∧ (encodeBytes 0xFFFFFFFF#32)[4]? = some 0x0F#8 := by decide

theorem witness_EncodedBitsComeFromTheValue : 4 < (bytecount 0x80000000#32).toNat := by decide

theorem witness_EncodedLengthIsMinimal :
    decodeTx [0x80, 0x00] 0 = .ok 0 2 ∧ decodeTx [0xAC, 0x02] 0 = .ok 300 2 := by decide

theorem witness_EncodeWritesEachIndexOnceInOrder :
    (∃ t, exec .encode (block 300 [] 0 []) = .next t) ∧ (∃ t, exec .encode (block (-1) [] 0 []) = .next t) ∧
      5 ≤ 5 := ⟨⟨_, rfl⟩, ⟨_, rfl⟩, by decide⟩

theorem witness_BoundsNeverWrap : 3 < 2 ^ 2 ∧ 3 < 2 ^ 2 ∧ 1 ≤ 4 ∧ 2 ^ 2 ≤ 3 + 1 ∧ 3 ≤ 3 := by decide

theorem witness_BarrelShifterPlacesThePayload :
    4 ≤ 4 ∧ (dshift 0x7F#7 4).getLsbD 34 = true ∧ (dshift 0x7F#7 4).getLsbD 27 = false := by decide

theorem witness_AccumulatorOrIsAddition :
    4 ≤ 4 ∧ (0x0FFFFFFF#32).toNat < 2 ^ (7 * 4) ∧ ovfdet 0x0F#7 4 = false := by decide

theorem witness_OverflowDetectorSeesBitsAbove31 : 4 ≤ 4 ∧ ovfdet 0x10#7 4 = true ∧ ovfdet 0x7F#7 3 = false := by
  decide

theorem witness_DecodeStartStep :
    (∃ i, (reading [0x80] 0 0).dec.phase = .reading i) ∧
      (∀ i, encoded.dec.phase ≠ .reading i) ∧ encoded.anyBusy = false := by decide

/-- One state for each of the five outcomes of R129, at the boundary bytes of its corner cases. -/
theorem witness_DecodeGroupStepOutcomes :
    ((reading [0x80] 1 0).dec.phase = .reading 1 ∧
      (reading [0x80] 1 0).dec.len ≤ (reading [0x80] 1 0).dec.off + 1) ∧
    (memRead (reading [0x80, 0x80, 0x80, 0x80, 0x90] 4 0).ports.ibuf 4 = some 0x90#8 ∧
      BitVec.extractLsb' 4 3 0x90#8 ≠ 0#3) ∧
    (memRead (reading [0x80, 0x80, 0x80, 0x80, 0x0F] 4 0).ports.ibuf 4 = some 0x0F#8 ∧
      BitVec.extractLsb' 4 3 0x0F#8 = 0#3 ∧ BitVec.getLsbD 0x0F#8 7 = false) ∧
    (memRead (reading [0x80, 0x80, 0x80, 0x80, 0x8F] 4 0).ports.ibuf 4 = some 0x8F#8 ∧
      BitVec.extractLsb' 4 3 0x8F#8 = 0#3 ∧ BitVec.getLsbD 0x8F#8 7 = true) ∧
    ((reading [0x80, 0x80, 0x80, 0xFF] 3 0).dec.off + 3 < (reading [0x80, 0x80, 0x80, 0xFF] 3 0).dec.len ∧
      memRead (reading [0x80, 0x80, 0x80, 0xFF] 3 0).ports.ibuf 3 = some 0xFF#8 ∧
      BitVec.getLsbD 0xFF#8 7 = true) := by decide

theorem witness_FifthByteAcceptedExactlyBelow16 :
    ((reading [0x80, 0x80, 0x80, 0x80, 0x0F] 4 0).dec.phase = .reading 4 ∧
      (reading [0x80, 0x80, 0x80, 0x80, 0x0F] 4 0).dec.off + 4 <
        (reading [0x80, 0x80, 0x80, 0x80, 0x0F] 4 0).dec.len ∧
      memRead (reading [0x80, 0x80, 0x80, 0x80, 0x0F] 4 0).ports.ibuf 4 = some 0x0F#8) ∧
    0x0F#8 &&& 0xF0#8 = 0#8 ∧ 0x10#8 &&& 0xF0#8 ≠ 0#8 := by decide

theorem witness_TruncatedExactlyPastTheBuffer :
    (reading [0x80] 1 0).dec.phase = .reading 1 ∧ (∃ t, decGroupStep (reading [0x80] 1 0) = .next t) ∧
      (∃ t, decGroupStep (reading [0x80] 0 0) = .next t) := ⟨rfl, ⟨_, rfl⟩, ⟨_, rfl⟩⟩

theorem witness_DecodeRunGivesTransactionResult :
    (∀ i, (block 0 [0xAC, 0x02] 0 []).dec.phase ≠ .reading i) ∧ (block 0 [0xAC, 0x02] 0 []).anyBusy = false ∧
      presentsDecode (block 0 [0xAC, 0x02] 0 []) [0xAC, 0x02] 0 ∧
      presentsDecode (block 0 [] 5 []) [] 5 := by decide

theorem witness_DecodeReadsExactlyTheBytesItNeeds :
    presentsDecode (block 0 [0xAC, 0x02] 1 []) [0xAC, 0x02] 1 ∧
      ∃ t, exec .decode (block 0 [0xAC, 0x02] 1 []) = .next t := ⟨by decide, _, rfl⟩

theorem witness_DecodedValueIsThePayloadSum :
    decodeTx [0x00, 0xFF, 0xFF, 0xFF, 0xFF, 0x0F] 1 = .ok 0xFFFFFFFF#32 5#3 := by decide

theorem witness_DecodeIgnoresBytesPastTheTerminator :
    decodeTx [0x01, 0xFF] 0 = .ok 1 1 ∧ ∀ j, j < (1#3 : Count).toNat → [0x01#8][0 + j]? = [0x01#8, 0xFF#8][0 + j]? := by
  decide

theorem witness_OverlongInputIsAccepted : (bytecount 268435455#32).toNat < 5 := by decide

theorem witness_EncodedValueComesBackThroughTheDecoder :
    rangechk (block 300 [] 0 []).ports.encIn = true ∧ (∃ t, exec .encode (block 300 [] 0 []) = .next t) ∧
      (∀ i, (block 0 [0x00, 0xAC, 0x02, 0xFF] 1 []).dec.phase ≠ .reading i) ∧
      (block 0 [0x00, 0xAC, 0x02, 0xFF] 1 []).anyBusy = false ∧
      presentsDecode (block 0 [0x00, 0xAC, 0x02, 0xFF] 1 []) ([0x00] ++ [0xAC, 0x02] ++ [0xFF]) 1 :=
  ⟨by decide, ⟨_, rfl⟩, by decide, by decide, by decide⟩

theorem witness_OnlyTheStatedCausesRaiseErrors :
    (∃ t, step (block (-1) [] 0 [.start 1]) = .next t ∧ t.enc.phase = .failed) ∧
      (block (-1) [] 0 [.start 1]).enc.phase ≠ .failed ∧
      (∃ t, step (reading [] 0 0) = .next t ∧ t.dec.phase = .failed) ∧
      (∃ t, step (reading [0x80, 0x80, 0x80, 0x80, 0x80] 4 0) = .next t ∧ t.dec.phase = .failed) ∧
      (reading [] 0 0).dec.phase ≠ .failed :=
  ⟨⟨_, rfl, rfl⟩, by decide, ⟨_, rfl, rfl⟩, ⟨_, rfl, rfl⟩, by decide⟩

theorem witness_ResultsIgnoreEarlierCalls :
    encoded.ports = (block 300 [] 0 []).ports ∧
      (∃ t, exec .bytecount encoded = .next t) ∧ (∃ t, exec .bytecount (block 300 [] 0 []) = .next t) ∧
      (∃ t, exec .encode encoded = .next t) ∧ (∃ t, exec .encode (block 300 [] 0 []) = .next t) ∧
      (∃ t, exec .decode encoded = .next t) ∧ (∃ t, exec .decode (block 300 [] 0 []) = .next t) :=
  ⟨rfl, ⟨_, rfl⟩, ⟨_, rfl⟩, ⟨_, rfl⟩, ⟨_, rfl⟩, ⟨_, rfl⟩, ⟨_, rfl⟩⟩

theorem witness_ResetLeavesBothUnitsIdle :
    ((reading [0x80] 0 0).setInputs [.reset]).inputs = .reset :: [] := by decide

theorem witness_StepKeepsTheInvariant : encoding.Inv ∧ ∃ t, step encoding = .next t := ⟨encoding_inv, _, rfl⟩

theorem witness_StepKeepsObufCoherent :
    encoding.Inv ∧ encoding.encCoherent ∧ ∃ t, step encoding = .next t :=
  ⟨encoding_inv, encoding_coherent, _, rfl⟩

theorem witness_ObufIsCompleteExactlyWhenDone :
    (encoded.Inv ∧ encoded.encCoherent ∧ encoded.enc.phase = .done) ∧
      (encoding.Inv ∧ encoding.encCoherent ∧ encoding.enc.phase ≠ .done) :=
  ⟨⟨encoded_inv, encoded_coherent, rfl⟩, encoding_inv, encoding_coherent, by decide⟩

theorem witness_StepKeepsAddressWidth :
    (reading [0x80] 0 0).Fits 2 ∧ ∃ t, step (reading [0x80] 0 0) = .next t := ⟨reading_fits, _, rfl⟩

theorem witness_DutifulHostsNeverCauseAFault : encoding.Inv := encoding_inv

theorem witness_CommandsLeaveOtherUnitsAlone :
    (∃ t, exec .bytecount encoded = .next t) ∧ (∃ t, exec .encode encoded = .next t) ∧
      ∃ t, exec .decode encoded = .next t := ⟨⟨_, rfl⟩, ⟨_, rfl⟩, _, rfl⟩

theorem witness_DecodeGroupStepFrame : ∃ t, decGroupStep (reading [0xAC, 0x02] 0 0) = .next t := ⟨_, rfl⟩

theorem witness_InputIsStableDuringDecode :
    ((reading [0xAC, 0x02] 0 0).dec.phase = .reading 0 ∧ ∃ t, step (reading [0xAC, 0x02] 0 0) = .next t) ∧
      ((reading [0x80] 0 0).setInputs [.driveDec 0 0 []]).inputs = .driveDec 0 0 [] :: [] :=
  ⟨⟨rfl, _, rfl⟩, rfl⟩

theorem witness_TerminalPhasesHoldUntilTheNextStart :
    (∃ t, step (encoded.setInputs [.start 2]) = .next t) ∧
      (∀ rest, (encoded.setInputs [.start 2]).inputs ≠ .reset :: rest) ∧
      (encoded.setInputs [.start 2]).enc.phase = .done ∧
      (∀ rest, (encoded.setInputs [.start 2]).inputs ≠ .start 0b01#2 :: rest) :=
  ⟨⟨_, rfl⟩, (fun _ h => by cases h), rfl, (fun _ h => by cases h)⟩

theorem witness_UnitStepsCommute :
    (∃ t, decGroupStep (reading [0xAC, 0x02] 0 0) = .next t) ∧
      decGroupStep (encoding.setDec (reading [0x80] 0 0).dec) = .fault .ibufByteNotSupplied :=
  ⟨⟨_, rfl⟩, rfl⟩

/-- The clause of each start step on another unit in flight. -/
theorem witness_another_unit_in_flight :
    ((reading [0x80] 0 0).enc.phase ≠ .busy ∧ ∃ i, (reading [0x80] 0 0).dec.phase = .reading i) ∧
      (∀ i, encoding.dec.phase ≠ .reading i) ∧ encoding.enc.phase = .busy := by decide

theorem witness_BytecountCompletes : (block 300 [] 0 []).anyBusy = false ∧ encoded.anyBusy = false := by decide

theorem witness_OneOperationRunsAtATime :
    (∃ t, Host.Core.run core 2 (State.reset.setInputs [.driveEnc 300, .start 1]) = .next t) ∧
    (∃ t, exec .encode (block 300 [] 0 []) = .next t) ∧
      (∃ t, step ((block 300 [] 0 []).withFetchWord 8 1) = .next t) ∧
      (block 300 [] 0 []).encBusy = false := ⟨⟨_, rfl⟩, ⟨_, rfl⟩, ⟨_, rfl⟩, rfl⟩

theorem witness_OperationsEndWithinFiveGroupStepsEach :
    encoding.Inv ∧ (encoding.encBusy = false ∨ encoding.decReading = false) := ⟨encoding_inv, by decide⟩

theorem witness_InstancesAreIndependent :
    (0 : Nat) ≠ 1 ∧ (∃ a, stepInstance 0 [encoding, reading [0xAC, 0x02] 0 0] = .next a) ∧
      ∃ b, stepInstance 1 [encoding, reading [0xAC, 0x02] 0 0] = .next b := ⟨by decide, ⟨_, rfl⟩, _, rfl⟩

end Sys2Proof.Tests
end

section
/-! PROOFS. The states of an instance of width `ADDR_W` (00_scope.md R4): one rule per update of State,
one per operation of the block, and O49. -/

namespace Sys2Proof.Machine

variable {w : Nat} {s t : State}

/-! ### One rule per update -/

theorem State.Fits.setBle (hs : s.Fits w) (b : BleOut) : (s.setBle b).Fits w :=
  ⟨hs.offIn, hs.lenIn, hs.off, hs.len, hs.inputs⟩

theorem State.Fits.setEnc (hs : s.Fits w) (e : EncRegs) : (s.setEnc e).Fits w :=
  ⟨hs.offIn, hs.lenIn, hs.off, hs.len, hs.inputs⟩

theorem State.Fits.setDec (hs : s.Fits w) {d : DecRegs} (hoff : d.off < 2 ^ w) (hlen : d.len < 2 ^ w) :
    (s.setDec d).Fits w :=
  ⟨hs.offIn, hs.lenIn, hoff, hlen, hs.inputs⟩

theorem State.Fits.setPorts (hs : s.Fits w) {p : Ports} (hoff : p.decOffIn < 2 ^ w)
    (hlen : p.decLenIn < 2 ^ w) : (s.setPorts p).Fits w :=
  ⟨hoff, hlen, hs.off, hs.len, hs.inputs⟩

/-- A host that drops moves from its list, or keeps them all, gives no wider one. -/
theorem State.Fits.setInputs (hs : s.Fits w) {l : List HostMove} (hl : ∀ m ∈ l, m ∈ s.inputs) :
    (s.setInputs l).Fits w :=
  ⟨hs.offIn, hs.lenIn, hs.off, hs.len, fun m hm => hs.inputs m (hl m hm)⟩

theorem State.Fits.next_move (hs : s.Fits w) {m : HostMove} {rest : List HostMove}
    (hi : s.inputs = m :: rest) : m.fits w :=
  hs.inputs m (hi ▸ List.mem_cons_self)

theorem State.Fits.pop_move (hs : s.Fits w) {m : HostMove} {rest : List HostMove}
    (hi : s.inputs = m :: rest) : (s.setInputs rest).Fits w :=
  hs.setInputs fun _ hm => hi ▸ List.mem_cons_of_mem m hm

/-! ### One rule per operation -/

theorem encGroupStep_fits (hs : s.Fits w) : (encGroupStep s).Fits w := by
  rw [encGroupStep_eq_setEnc]
  exact hs.setEnc _

theorem decGroupStep_fits (hs : s.Fits w) (h : decGroupStep s = .next t) : t.Fits w := by
  obtain ⟨d, hoff, hlen, rfl⟩ := decGroupStep_setDec h
  exact hs.setDec (hoff ▸ hs.off) (hlen ▸ hs.len)

/-- The operands a DECODE start latches come from ports of the same width (R128). -/
theorem decStart_fits (hs : s.Fits w) : (decStart s).Fits w :=
  hs.setDec hs.offIn hs.lenIn

theorem resetUnits_fits (hs : s.Fits w) : (resetUnits s).Fits w :=
  ((hs.setBle _).setEnc _).setDec (Nat.two_pow_pos w) (Nat.two_pow_pos w)

theorem exec_fits {i : Instr} (hs : s.Fits w) (h : exec i s = .next t) : t.Fits w := by
  obtain ⟨-, ⟨-, rfl⟩ | ⟨-, -, rfl⟩ | ⟨-, -, rfl⟩ | ⟨-, rfl⟩⟩ := exec_next h
  · exact hs.setBle _
  · exact hs.setEnc _
  · exact hs.setEnc _
  · exact decStart_fits hs

theorem step_fits (hs : s.Fits w) (h : step s = .next t) : t.Fits w := by
  obtain ⟨l, -, rfl, hl, -, -⟩ | ⟨l, hd, hl, -, -⟩ | ⟨l, rfl, hl, -, -⟩ | ⟨v, rest, hi, rfl⟩ |
    ⟨x, rest, hi, rfl⟩ | ⟨off, len, buf, rest, hi, -, rfl⟩ | ⟨op, rest, hi, hx⟩ | ⟨rest, hi, rfl⟩ :=
    step_cases h
  · exact encGroupStep_fits (hs.setInputs hl)
  · exact decGroupStep_fits (hs.setInputs hl) hd
  · exact hs.setInputs hl
  · exact (hs.pop_move hi).setPorts hs.offIn hs.lenIn
  · exact (hs.pop_move hi).setPorts hs.offIn hs.lenIn
  · obtain ⟨hoff, hlen⟩ := hs.next_move hi
    exact (hs.pop_move hi).setPorts hoff hlen
  · exact exec_fits (hs.pop_move hi) hx
  · exact resetUnits_fits (hs.pop_move hi)

/-- Settles O49: the case split is over what a step can do. Offsets and lengths are written by a
DECODE drive (of a width the host may give), a DECODE start (from the ports) and a reset (0). -/
theorem stepKeepsAddressWidth : Obligations.StepKeepsAddressWidth :=
  fun _ _ _ hs h => step_fits hs h

end Sys2Proof.Machine
end

section
/-! PROOFS. The invariant of the machine (10_state.md R33, R27; 20_memory.md R41) and the contents of OBUF
(41_encoder.md R106, R109): reset meets them and every step keeps them; O44, O45, O46 and O47. -/

namespace Sys2Proof.Machine

variable {s t : State}

/-! ### Facts about the pieces -/

/-- A byte count is from 1 to 5 (R85). -/
theorem bytecount_range (v : Word) : 1 ≤ (bytecount v).toNat ∧ (bytecount v).toNat ≤ 5 := by
  have hb := bitlen_range v
  simp only [bytecount, grouplut_toNat, Config.lutEntries] at hb ⊢
  omega

/-- An index below the byte count advances without wrap (R33). -/
theorem encIndex_succ_toNat {i n : Count} (h : i.toNat < n.toNat) : (i + 1#3).toNat = i.toNat + 1 := by
  bv_omega

/-- A byte space that holds the indices below `k` holds those below `k + 1` once index `k` is written. -/
theorem memWrite_isSome_iff {m : Memory} {k : Nat} (h : ∀ a, (memRead m a).isSome = true ↔ a < k)
    (b : Byte) (a : Nat) : (memRead (memWrite m k b) a).isSome = true ↔ a < k + 1 := by
  by_cases ha : a = k
  · simp [ha, memRead_memWrite_same]
  · rw [memRead_memWrite_other m b ha, h a]
    omega

/-- A payload shifted to group `i` stays below the next group's bits (R122). -/
theorem dshift_lt (p : Payload) (i : Nat) : (dshift p i).toNat < 2 ^ (7 * (i + 1)) := by
  have hle : (dshift p i).toNat ≤ p.toNat * 2 ^ (7 * i) := by
    simp only [dshift, BitVec.toNat_shiftLeft, Nat.shiftLeft_eq, BitVec.toNat_setWidth]
    exact (Nat.mod_le _ _).trans (Nat.mul_le_mul_right _ (Nat.mod_le _ _))
  calc (dshift p i).toNat ≤ p.toNat * 2 ^ (7 * i) := hle
    _ < 2 ^ 7 * 2 ^ (7 * i) := Nat.mul_lt_mul_of_pos_right p.isLt (Nat.two_pow_pos _)
    _ = 2 ^ (7 * (i + 1)) := by rw [← pow_add]; congr 1; omega

/-- Taking group `i` into an accumulator of `i` groups makes one of `i + 1` groups (R27, R123). -/
theorem accUpdate_lt {acc : Word} {i : Nat} (h : acc.toNat < 2 ^ (7 * i)) (p : Payload) :
    (accUpdate acc (dshift p i)).toNat < 2 ^ (7 * (i + 1)) := by
  have hacc : acc.toNat < 2 ^ (7 * (i + 1)) := h.trans_le (Nat.pow_le_pow_right (by decide) (by omega))
  have hsh : ((dshift p i).extractLsb' 0 32).toNat < 2 ^ (7 * (i + 1)) := by
    rw [BitVec.extractLsb'_toNat]
    exact (Nat.mod_le _ _).trans_lt (dshift_lt p i)
  rw [accUpdate, BitVec.toNat_or]
  exact Nat.or_lt_two_pow hacc hsh

/-! ### Each part of the invariant reads its own registers -/

theorem State.EncInv.of_enc_eq (h : s.EncInv) (he : t.enc = s.enc) : t.EncInv :=
  ⟨he ▸ h.obufWf, he ▸ h.busy, he ▸ h.done, he ▸ h.failed⟩

theorem State.DecInv.of_dec_eq (h : s.DecInv) (hd : t.dec = s.dec) : t.DecInv :=
  ⟨hd ▸ h.reading, hd ▸ h.done, hd ▸ h.failed⟩

theorem State.encCoherent_of_enc_eq (h : s.encCoherent) (he : t.enc = s.enc) : t.encCoherent := by
  unfold State.encCoherent at *
  rwa [he]

/-- R33 asks nothing of an idle Encoder but the form of OBUF. -/
theorem State.encInv_of_idle (hw : Memory.wf s.enc.obuf) (hp : s.enc.phase = .idle) : s.EncInv where
  obufWf := hw
  busy := by simp [hp]
  done := by simp [hp]
  failed := by simp [hp]

theorem State.decInv_of_idle (hp : s.dec.phase = .idle) : s.DecInv where
  reading := by simp [hp]
  done := by simp [hp]
  failed := by simp [hp]

theorem State.encCoherent_of_not_in_flight (hb : s.enc.phase ≠ .busy) (hd : s.enc.phase ≠ .done) :
    s.encCoherent := fun h => (h.elim hb hd).elim

/-! ### One rule per update of State -/

theorem State.Inv.setBle (hs : s.Inv) (b : BleOut) : (s.setBle b).Inv where
  enc := hs.enc.of_enc_eq rfl
  dec := hs.dec.of_dec_eq rfl
  host := ⟨hs.host.ibufWf, hs.host.supplied, hs.host.stable, hs.host.inputs⟩

theorem State.Inv.setEnc (hs : s.Inv) {e : EncRegs} (he : (s.setEnc e).EncInv) : (s.setEnc e).Inv where
  enc := he
  dec := hs.dec.of_dec_eq rfl
  host := ⟨hs.host.ibufWf, hs.host.supplied, hs.host.stable, hs.host.inputs⟩

/-- A Decoder that reads must hold the operands on the ports (R174 (b)). -/
theorem State.Inv.setDec (hs : s.Inv) {d : DecRegs} (hd : (s.setDec d).DecInv)
    (hst : (s.setDec d).decReading = true → d.off = s.ports.decOffIn ∧ d.len = s.ports.decLenIn) :
    (s.setDec d).Inv where
  enc := hs.enc.of_enc_eq rfl
  dec := hd
  host := ⟨hs.host.ibufWf, hs.host.supplied, hst, hs.host.inputs⟩

/-- The ports of the other units are free (R68). -/
theorem State.Inv.setPorts_of_dec_eq (hs : s.Inv) {p : Ports} (hoff : p.decOffIn = s.ports.decOffIn)
    (hlen : p.decLenIn = s.ports.decLenIn) (hbuf : p.ibuf = s.ports.ibuf) : (s.setPorts p).Inv where
  enc := hs.enc.of_enc_eq rfl
  dec := hs.dec.of_dec_eq rfl
  host :=
    { ibufWf := hbuf ▸ hs.host.ibufWf
      supplied := by simpa [hbuf, hlen] using hs.host.supplied
      stable := fun h => by simpa [hoff, hlen] using hs.host.stable h
      inputs := hs.host.inputs }

/-- The DECODE ports may be driven while no DECODE reads (R41, R174 (b)). -/
theorem State.Inv.setPorts_of_not_reading (hs : s.Inv) {p : Ports} (hr : s.decReading = false)
    (hw : Memory.wf p.ibuf) (hsup : memSupplied p.ibuf p.decLenIn) : (s.setPorts p).Inv where
  enc := hs.enc.of_enc_eq rfl
  dec := hs.dec.of_dec_eq rfl
  host := ⟨hw, hsup, fun h => absurd (hr.symm.trans h) Bool.false_ne_true, hs.host.inputs⟩

theorem State.Inv.setInputs (hs : s.Inv) {l : List HostMove} (hl : ∀ m ∈ l, m ∈ s.inputs) :
    (s.setInputs l).Inv where
  enc := hs.enc.of_enc_eq rfl
  dec := hs.dec.of_dec_eq rfl
  host := ⟨hs.host.ibufWf, hs.host.supplied, hs.host.stable, fun m hm => hs.host.inputs m (hl m hm)⟩

theorem State.Inv.next_move (hs : s.Inv) {m : HostMove} {rest : List HostMove}
    (hi : s.inputs = m :: rest) : m.wf :=
  hs.host.inputs m (hi ▸ List.mem_cons_self)

theorem State.Inv.pop_move (hs : s.Inv) {m : HostMove} {rest : List HostMove}
    (hi : s.inputs = m :: rest) : (s.setInputs rest).Inv :=
  hs.setInputs fun _ hm => hi ▸ List.mem_cons_of_mem m hm

/-! ### The invariant, one rule per operation -/

/-- A group step fills lane `enc_i` and advances to it, so the lanes below `enc_i` stay the ones held. -/
theorem encGroupStep_encInv (hs : s.EncInv) : (encGroupStep s).EncInv := by
  cases hb : s.encBusy
  · rwa [encGroupStep_of_not_busy hb]
  · obtain ⟨hn1, hn5, hin, hlanes⟩ := hs.busy ((encBusy_iff s).mp hb)
    have hi := encIndex_succ_toNat hin
    have hlanes' := memWrite_isSome_iff hlanes (encByte s.enc.val s.enc.n.toNat s.enc.i.toNat)
    have hwf := memWrite_wf hs.obufWf s.enc.i.toNat (encByte s.enc.val s.enc.n.toNat s.enc.i.toNat)
    rw [encGroupStep_of_busy hb]
    by_cases hd : s.enc.i + 1#3 = s.enc.n
    · refine ⟨hwf, by simp [hd], fun _ => ⟨hd, hn1, hn5, ?_⟩, by simp [hd]⟩
      simpa [← hd, hi] using hlanes'
    · have hne : (s.enc.i + 1#3).toNat ≠ s.enc.n.toNat := mt BitVec.eq_of_toNat_eq hd
      refine ⟨hwf, fun _ => ⟨hn1, hn5, ?_, ?_⟩, by simp [hd], by simp [hd]⟩
      · simp only [setEnc_enc]
        omega
      · simpa [hi] using hlanes'

theorem encStart_encInv (s : State) : (encStart s).EncInv where
  obufWf := List.Pairwise.nil
  busy _ := by
    obtain ⟨h1, h5⟩ := bytecount_range (encValuePart s.ports.encIn)
    exact ⟨h1, h5, h1, by simp⟩
  done h := by cases h
  failed h := by cases h

theorem raise_invalidInput_encInv (hs : s.EncInv) : (s.raise .invalidInput).EncInv where
  obufWf := hs.obufWf
  busy h := by cases h
  done h := by cases h
  failed _ := rfl

theorem raise_truncated_decInv (s : State) : (s.raise .truncated).DecInv where
  reading _ h := by cases h
  done h := by cases h
  failed _ := .inl rfl

theorem setDec_overflow_decInv (s : State) (acc : Word) :
    (s.setDec { s.dec with acc := acc, phase := .failed, cause := 3#2 }).DecInv where
  reading _ h := by cases h
  done h := by cases h
  failed _ := .inr rfl

theorem decStart_decInv (s : State) : (decStart s).DecInv where
  reading i h := by cases h; exact ⟨rfl, Nat.two_pow_pos _⟩
  done h := by cases h
  failed h := by cases h

theorem decTakeByte_decInv {i : Fin 5} (hs : s.DecInv) (hr : s.dec.phase = .reading i) (b : Byte) :
    (decTakeByte s i b).DecInv := by
  obtain ⟨hgroup, hacc⟩ := hs.reading i hr
  rcases decTakeByte_cases s i b with ⟨-, h⟩ | ⟨-, -, h⟩ | ⟨-, -, -, h⟩ | ⟨-, -, hi, h⟩ <;> rw [h]
  · exact setDec_overflow_decInv s _
  · refine ⟨nofun, fun _ => ?_, nofun⟩
    exact hgroup.trans_le (by omega)
  · exact setDec_overflow_decInv s _
  · refine ⟨fun j hj => ?_, nofun, nofun⟩
    cases hj
    have hval : (i + 1).val = i.val + 1 := Fin.val_add_one_of_lt (Fin.lt_def.mpr hi)
    rw [hval]
    refine ⟨?_, accUpdate_lt hacc _⟩
    simp only [setDec_dec, BitVec.toNat_ofNat]
    omega

theorem decGroupStep_decInv (hs : s.DecInv) (h : decGroupStep s = .next t) : t.DecInv := by
  rcases decGroupStep_cases s with ⟨-, h'⟩ | ⟨i, hr, ⟨-, h'⟩ | ⟨-, b, -, h'⟩ | ⟨-, -, h'⟩⟩ <;>
    rw [h'] at h <;> cases h
  · exact hs
  · exact raise_truncated_decInv s
  · exact decTakeByte_decInv hs hr b

theorem encGroupStep_inv (hs : s.Inv) : (encGroupStep s).Inv := by
  rw [encGroupStep_eq_setEnc]
  exact hs.setEnc ((encGroupStep_encInv hs.enc).of_enc_eq rfl)

theorem decGroupStep_inv (hs : s.Inv) (h : decGroupStep s = .next t) : t.Inv := by
  cases hr : s.decReading
  · rw [decGroupStep_of_not_reading hr] at h
    cases h
    exact hs
  · obtain ⟨d, hoff, hlen, rfl⟩ := decGroupStep_setDec h
    obtain ⟨hsoff, hslen⟩ := hs.host.stable hr
    exact hs.setDec (decGroupStep_decInv hs.dec h) fun _ => ⟨hoff.trans hsoff, hlen.trans hslen⟩

theorem resetUnits_inv (hs : s.Inv) : (resetUnits s).Inv :=
  ((hs.setBle _).setEnc (State.encInv_of_idle List.Pairwise.nil rfl)).setDec
    (State.decInv_of_idle rfl) fun h => by cases h

theorem exec_inv {i : Instr} (hs : s.Inv) (h : exec i s = .next t) : t.Inv := by
  obtain ⟨-, ⟨-, rfl⟩ | ⟨-, -, rfl⟩ | ⟨-, -, rfl⟩ | ⟨-, rfl⟩⟩ := exec_next h
  · exact hs.setBle _
  · exact hs.setEnc (encStart_encInv s)
  · exact hs.setEnc (raise_invalidInput_encInv hs.enc)
  · exact hs.setDec (decStart_decInv s) fun _ => ⟨rfl, rfl⟩

theorem step_inv (hs : s.Inv) (h : step s = .next t) : t.Inv := by
  obtain ⟨l, -, rfl, hl, -, -⟩ | ⟨l, hd, hl, -, -⟩ | ⟨l, rfl, hl, -, -⟩ | ⟨v, rest, hi, rfl⟩ |
    ⟨x, rest, hi, rfl⟩ | ⟨off, len, buf, rest, hi, hr, rfl⟩ | ⟨op, rest, hi, hx⟩ | ⟨rest, hi, rfl⟩ :=
    step_cases h
  · exact encGroupStep_inv (hs.setInputs hl)
  · exact decGroupStep_inv (hs.setInputs hl) hd
  · exact hs.setInputs hl
  · exact (hs.pop_move hi).setPorts_of_dec_eq rfl rfl rfl
  · exact (hs.pop_move hi).setPorts_of_dec_eq rfl rfl rfl
  · obtain ⟨hw, hsup⟩ := hs.next_move hi
    exact (hs.pop_move hi).setPorts_of_not_reading hr hw hsup
  · exact exec_inv (hs.pop_move hi) hx
  · exact resetUnits_inv (hs.pop_move hi)

/-- Settles O46: the case split is over what a step can do. The Encoder's part turns on the lane a group
step fills, the Decoder's on the accumulator's bound growing by one group, the host's on `stable`: the
DECODE ports are driven only while no DECODE reads. -/
theorem stepKeepsTheInvariant : Obligations.StepKeepsTheInvariant :=
  fun _ _ hs h => step_inv hs h

/-! ### The contents of OBUF, one rule per operation -/

/-- A group step appends the byte of group `enc_i` to the bytes of the groups before it (R106). -/
theorem encGroupStep_encCoherent (hs : s.EncInv) (hc : s.encCoherent) :
    (encGroupStep s).encCoherent := by
  cases hb : s.encBusy
  · rwa [encGroupStep_of_not_busy hb]
  · have hp := (encBusy_iff s).mp hb
    obtain ⟨-, -, hin, -⟩ := hs.busy hp
    obtain ⟨hn, hobuf⟩ := hc (.inl hp)
    rw [encGroupStep_of_busy hb]
    refine fun _ => ⟨hn, ?_⟩
    have happ := memWrite_memOfBytes ((List.range s.enc.i.toNat).map (encByte s.enc.val s.enc.n.toNat))
      (encByte s.enc.val s.enc.n.toNat s.enc.i.toNat)
    rw [List.length_map, List.length_range, ← hobuf] at happ
    simp only [setEnc_enc, encIndex_succ_toNat hin, List.range_succ, List.map_append, List.map_singleton]
    exact happ

theorem exec_encCoherent {i : Instr} (hc : s.encCoherent) (h : exec i s = .next t) : t.encCoherent := by
  obtain ⟨-, ⟨-, rfl⟩ | ⟨-, -, rfl⟩ | ⟨-, -, rfl⟩ | ⟨-, rfl⟩⟩ := exec_next h
  · exact State.encCoherent_of_enc_eq hc rfl
  · exact fun _ => ⟨rfl, rfl⟩
  · exact State.encCoherent_of_not_in_flight (by simp [raise_invalidInput]) (by simp [raise_invalidInput])
  · exact State.encCoherent_of_enc_eq hc rfl

theorem resetUnits_encCoherent (s : State) : (resetUnits s).encCoherent :=
  State.encCoherent_of_not_in_flight nofun nofun

theorem step_encCoherent (hs : s.EncInv) (hc : s.encCoherent) (h : step s = .next t) :
    t.encCoherent := by
  have keep {u : State} (he : u.enc = s.enc) : u.encCoherent := State.encCoherent_of_enc_eq hc he
  obtain ⟨l, -, rfl, -, -, -⟩ | ⟨l, hd, -, -, -⟩ | ⟨l, rfl, -, -, -⟩ | ⟨v, rest, -, rfl⟩ |
    ⟨x, rest, -, rfl⟩ | ⟨off, len, buf, rest, -, -, rfl⟩ | ⟨op, rest, -, hx⟩ | ⟨rest, -, rfl⟩ :=
    step_cases h
  · exact encGroupStep_encCoherent (hs.of_enc_eq rfl) (keep rfl)
  · obtain ⟨d, -, -, rfl⟩ := decGroupStep_setDec hd
    exact keep rfl
  · exact keep rfl
  · exact keep rfl
  · exact keep rfl
  · exact keep rfl
  · exact exec_encCoherent (s := s.setInputs rest) (keep rfl) hx
  · exact resetUnits_encCoherent _

/-- Settles O47: only a group step (it appends the next group's byte), an ENCODE start (an empty OBUF at
index 0), its failure and a reset (neither phase is `Busy` or `Done`) write the Encoder's registers. -/
theorem stepKeepsObufCoherent : Obligations.StepKeepsObufCoherent :=
  fun _ _ hs hc h => step_encCoherent hs.enc hc h

/-! ### Reset -/

theorem step_of_reset {rest : List HostMove} (hi : s.inputs = .reset :: rest) :
    step s = .next (resetUnits (s.setInputs rest)) := by
  simp [step, hi]

/-- Settles O44: the reset move runs `resetUnits`, which writes the registers `State.reset` has. -/
theorem resetLeavesBothUnitsIdle : Obligations.ResetLeavesBothUnitsIdle :=
  ⟨⟨rfl, rfl, rfl, rfl, rfl⟩, fun _ _ hi =>
    ⟨_, step_of_reset hi, rfl, rfl, rfl, rfl, rfl, rfl, rfl, rfl, rfl⟩⟩

theorem reset_inv : State.reset.Inv where
  enc := State.encInv_of_idle reset_memory_wf.1 rfl
  dec := State.decInv_of_idle rfl
  host :=
    { ibufWf := reset_memory_wf.2
      supplied := fun a ha => absurd ha (Nat.not_lt_zero a)
      stable := fun h => by cases h
      inputs := fun _ hm => by cases hm }

theorem reset_encCoherent : State.reset.encCoherent :=
  State.encCoherent_of_not_in_flight (by decide) (by decide)

theorem reset_fits (w : Nat) : State.reset.Fits w where
  offIn := Nat.two_pow_pos w
  lenIn := Nat.two_pow_pos w
  off := Nat.two_pow_pos w
  len := Nat.two_pow_pos w
  inputs _ hm := by cases hm

/-- Settles O45: an idle unit owes nothing, IBUF owes no byte at length 0, and 0 fits every width. -/
theorem resetMeetsTheInvariant : Obligations.ResetMeetsTheInvariant :=
  ⟨reset_inv, reset_encCoherent, reset_fits⟩

end Sys2Proof.Machine
end

section
/-! PROOFS. A result depends on the operands alone (10_state.md R20, 42_decoder.md R132, 60_exceptions.md
R159): for each unit a relation between two blocks that the unit's group steps keep and under which its
result ports read alike; O43. -/

namespace Sys2Proof.Machine

variable {s s' t t' : State}

/-! ### Encoders that read alike -/

/-- The Encoders of two blocks differ in nothing a result or a group step shows: both failed with one
cause, or neither failed and they hold the same registers but for the cause. -/
def EncAlike (s s' : State) : Prop :=
  (s.enc.phase = .failed ∧ s'.enc.phase = .failed ∧ s.enc.cause = s'.enc.cause) ∨
    (s.enc.phase ≠ .failed ∧ ∃ c : Code, s'.enc = { s.enc with cause := c })

theorem EncAlike.encResult_eq (h : EncAlike s s') : encResult s = encResult s' := by
  obtain ⟨hf, hf', hc⟩ | ⟨hf, c, he⟩ := h
  · simp [encResult, hf, hf', hc]
  · cases hp : s.enc.phase with
    | failed => exact absurd hp hf
    | idle | busy | done => simp [encResult, he, hp]

theorem EncAlike.encGroupStep (h : EncAlike s s') : EncAlike (encGroupStep s) (encGroupStep s') := by
  cases hb : s.encBusy with
  | false =>
    have hb' : s'.encBusy = false := by
      obtain ⟨-, hf', -⟩ | ⟨-, c, he⟩ := h
      · simp [State.encBusy, hf']
      · simpa [State.encBusy, he] using hb
    rwa [encGroupStep_of_not_busy hb, encGroupStep_of_not_busy hb']
  | true =>
    have hp := (encBusy_iff s).mp hb
    obtain ⟨hf, -, -⟩ | ⟨-, c, he⟩ := h
    · exact absurd (hp.symm.trans hf) (by decide)
    · have hb' : s'.encBusy = true := (encBusy_iff s').mpr (by simp [he, hp])
      rw [encGroupStep_of_busy hb, encGroupStep_of_busy hb']
      refine .inr ⟨?_, c, by simp [he]⟩
      simp only [setEnc_enc]
      split <;> decide

theorem EncAlike.encSteps (h : EncAlike s s') (k : Nat) : EncAlike (encSteps k s) (encSteps k s') := by
  induction k generalizing s s' with
  | zero => exact h
  | succ k ih => exact ih h.encGroupStep

/-- The start step writes every register but the cause, or fails with the cause the operand alone gives. -/
theorem encAlike_of_exec (hp : s.ports = s'.ports) (h : exec .encode s = .next t)
    (h' : exec .encode s' = .next t') : EncAlike t t' := by
  obtain ⟨-, ⟨hr, rfl⟩ | ⟨hr, rfl⟩⟩ := execEncode_next h <;>
    obtain ⟨-, ⟨hr', rfl⟩ | ⟨hr', rfl⟩⟩ := execEncode_next h'
  · exact .inr ⟨by simp, s'.enc.cause, by simp [encStart, hp]⟩
  · simp [hp, hr'] at hr
  · simp [hp, hr'] at hr
  · exact .inl ⟨rfl, rfl, rfl⟩

/-! ### Decoders that read alike -/

/-- Two blocks with one IBUF whose Decoders differ in nothing a result or a group step shows. -/
def DecAlike (s s' : State) : Prop :=
  s.ports.ibuf = s'.ports.ibuf ∧
    ((s.dec.phase = .failed ∧ s'.dec.phase = .failed ∧ s.dec.cause = s'.dec.cause) ∨
      (s.dec.phase ≠ .failed ∧ ∃ c : Code, s'.dec = { s.dec with cause := c }))

theorem DecAlike.decResult_eq (h : DecAlike s s') : decResult s = decResult s' := by
  obtain ⟨-, ⟨hf, hf', hc⟩ | ⟨hf, c, he⟩⟩ := h
  · simp [decResult, hf, hf', hc]
  · cases hp : s.dec.phase with
    | failed => exact absurd hp hf
    | idle | done => simp [decResult, he, hp]
    | reading i => simp [decResult, he, hp]

theorem DecAlike.decReadIndex_eq (h : DecAlike s s') : decReadIndex s = decReadIndex s' := by
  obtain ⟨-, ⟨hf, hf', -⟩ | ⟨-, c, he⟩⟩ := h
  · simp [decReadIndex, hf, hf']
  · simp [decReadIndex, he]

theorem DecAlike.decReading_eq (h : DecAlike s s') : s.decReading = s'.decReading := by
  obtain ⟨-, ⟨hf, hf', -⟩ | ⟨-, c, he⟩⟩ := h
  · simp [State.decReading, hf, hf']
  · simp [State.decReading, he]

/-- A group step that finds no byte inside the buffer faults. -/
theorem decGroupStep_not_supplied {i : Fin 5} (h : s.dec.phase = .reading i)
    (hb : s.dec.off + i.val < s.dec.len) (hm : memRead s.ports.ibuf (s.dec.off + i.val) = none) :
    decGroupStep s = .fault .ibufByteNotSupplied := by
  simp [decGroupStep, h, decReadIndex_reading h, hb, hm]

/-- The byte and the group tell which outcome a byte has, and either outcome that fails writes the cause
(R129). -/
theorem decAlike_decTakeByte {c : Code} (hbuf : s.ports.ibuf = s'.ports.ibuf)
    (he : s'.dec = { s.dec with cause := c }) (i : Fin 5) (b : Byte) :
    DecAlike (decTakeByte s i b) (decTakeByte s' i b) := by
  dsimp only [decTakeByte]
  split_ifs
  · exact ⟨hbuf, .inl ⟨rfl, rfl, rfl⟩⟩
  · exact ⟨hbuf, .inr ⟨nofun, c, by simp [he]⟩⟩
  · exact ⟨hbuf, .inl ⟨rfl, rfl, rfl⟩⟩
  · exact ⟨hbuf, .inr ⟨nofun, c, by simp [he]⟩⟩

/-- A group step answers alike: the same fault, or next states that are alike again. -/
theorem DecAlike.decGroupStep (h : DecAlike s s') :
    (∃ t t', decGroupStep s = .next t ∧ decGroupStep s' = .next t' ∧ DecAlike t t') ∨
      ∃ f, decGroupStep s = .fault f ∧ decGroupStep s' = .fault f := by
  cases hr : s.decReading with
  | false =>
    exact .inl ⟨s, s', decGroupStep_of_not_reading hr,
      decGroupStep_of_not_reading (h.decReading_eq ▸ hr), h⟩
  | true =>
    obtain ⟨i, hi⟩ := (decReading_iff s).mp hr
    obtain ⟨hbuf, ⟨hf, -, -⟩ | ⟨-, c, he⟩⟩ := h
    · simp [hi] at hf
    · have hi' : s'.dec.phase = .reading i := by simp [he, hi]
      have hoff : s'.dec.off = s.dec.off := by rw [he]
      have hlen : s'.dec.len = s.dec.len := by rw [he]
      by_cases hb : s.dec.off + i.val < s.dec.len
      · have hb' : s'.dec.off + i.val < s'.dec.len := by rwa [hoff, hlen]
        cases hm : memRead s.ports.ibuf (s.dec.off + i.val) with
        | none => exact .inr ⟨_, decGroupStep_not_supplied hi hb hm,
            decGroupStep_not_supplied hi' hb' (by rw [← hbuf, hoff, hm])⟩
        | some b => exact .inl ⟨_, _, decGroupStep_within hi hb hm,
            decGroupStep_within hi' hb' (by rw [← hbuf, hoff, hm]), decAlike_decTakeByte hbuf he i b⟩
      · have hb' : s'.dec.len ≤ s'.dec.off + i.val := by rw [hoff, hlen]; exact Nat.not_lt.mp hb
        exact .inl ⟨_, _, decGroupStep_past hi (Nat.not_lt.mp hb), decGroupStep_past hi' hb', hbuf,
          .inl ⟨rfl, rfl, rfl⟩⟩

theorem DecAlike.decReads_eq (h : DecAlike s s') (k : Nat) : decReads k s = decReads k s' := by
  induction k generalizing s s' with
  | zero => rfl
  | succ k ih =>
    obtain ⟨t, t', ht, ht', hA⟩ | ⟨f, hf, hf'⟩ := h.decGroupStep
    · simp [decReads, h.decReadIndex_eq, ht, ht', ih hA]
    · simp [decReads, h.decReadIndex_eq, hf, hf']

theorem DecAlike.decSteps (h : DecAlike s s') (k : Nat) (hk : decSteps k s = .next t) :
    ∃ t', decSteps k s' = .next t' ∧ DecAlike t t' := by
  induction k generalizing s s' with
  | zero =>
    cases hk
    exact ⟨s', rfl, h⟩
  | succ k ih =>
    obtain ⟨u, u', hu, hu', hA⟩ | ⟨f, hf, -⟩ := h.decGroupStep
    · simp only [Machine.decSteps, hu, hu'] at hk ⊢
      exact ih hA hk
    · simp [Machine.decSteps, hf] at hk

/-- The start step writes every register but the cause (R128). -/
theorem decAlike_decStart (hp : s.ports = s'.ports) : DecAlike (decStart s) (decStart s') :=
  ⟨congrArg Ports.ibuf hp, .inr ⟨nofun, s'.dec.cause, by simp [decStart, hp]⟩⟩

/-! ### The result of a call -/

theorem bcResult_setBle_started (s : State) (c : Count) :
    bcResult (s.setBle { count := c, started := true }) = some c := rfl

/-- Settles O43: after a start the two blocks' units are alike, group steps keep them so, and units that
are alike show one result. BYTECOUNT has its result in the start itself. -/
theorem resultsIgnoreEarlierCalls : Obligations.ResultsIgnoreEarlierCalls := by
  intro s s' t t' hp
  refine ⟨fun h h' => ?_, fun h h' k => ((encAlike_of_exec hp h h').encSteps k).encResult_eq,
    fun h h' k => ?_⟩
  · obtain ⟨-, rfl⟩ := startUnit_next h
    obtain ⟨-, rfl⟩ := startUnit_next h'
    simp only [bcResult_setBle_started, hp]
  · obtain ⟨-, rfl⟩ := execDecode_next h
    obtain ⟨-, rfl⟩ := execDecode_next h'
    have hA := decAlike_decStart hp
    refine ⟨hA.decReads_eq k, fun u hu => ?_⟩
    obtain ⟨u', hu', hAu⟩ := hA.decSteps k hu
    exact ⟨u', hu', hAu.decResult_eq⟩

end Sys2Proof.Machine
end

section
/-! PROOFS. The IBUF indices of a DECODE (20_memory.md R47, R49): a group step is an iteration of the loop of
R126, and the loop's result tells how many bytes were read; O34. The read index itself: O25. -/

namespace Sys2Proof.Machine

variable {s : State} {buf : List Byte} {off : Nat} {i : Fin 5}

/-! ### The read index -/

/-- Settles O25: the index is a sum of naturals, and a length that fits `ADDR_W` bits lies below its top. -/
theorem boundsNeverWrap : Obligations.BoundsNeverWrap := by
  intro w off g len hoff hlen hg
  refine ⟨rfl, ?_, decide_eq_true_iff, ?_, ?_, ?_⟩ <;>
    simp only [bounds, decide_eq_false_iff_not] <;> omega

/-! ### An iteration of the loop -/

theorem decodeLoop_past {g : Nat} (h : buf.length ≤ off + g) (k : Nat) (acc : Word) :
    decodeLoop buf off (k + 1) g acc = .err .truncated := by
  simp [decodeLoop, bounds, h]

theorem decodeLoop_within {g : Nat} {b : Byte} (h : buf[off + g]? = some b) (k : Nat) (acc : Word) :
    decodeLoop buf off (k + 1) g acc =
      if ovfdet (contscan b).2 g then .err .overflow
      else if !(contscan b).1 then
        .ok (accUpdate acc (dshift (contscan b).2 g)) (BitVec.ofNat 3 (g + 1))
      else if grplim (contscan b).1 g then .err .overflow
      else decodeLoop buf off k (g + 1) (accUpdate acc (dshift (contscan b).2 g)) := by
  simp [decodeLoop, bounds, h]

/-- The detector fires at the fifth byte only (R124). -/
theorem eq_four_of_ovfdet {p : Payload} {g : Nat} (h : ovfdet p g = true) : g = 4 := by
  simp only [ovfdet, Bool.and_eq_true, beq_iff_eq] at h
  exact h.1

/-- How many bytes a DECODE of `buf` at `off` with this result has read (R47). -/
def decReadCount (buf : List Byte) (off : Nat) : ResultDEC → Nat
  | .ok _ c => c.toNat
  | .err .truncated => buf.length - off
  | .err .overflow => 5

/-! ### A group step is an iteration -/

/-- The Decoder is at group `i` of a DECODE of `buf` at `off`. -/
structure State.DecodesAt (s : State) (buf : List Byte) (off : Nat) (i : Fin 5) : Prop where
  phase : s.dec.phase = .reading i
  group : s.dec.group = BitVec.ofNat 3 i.val
  off : s.dec.off = off
  len : s.dec.len = buf.length
  ibuf : ibufHolds s.ports.ibuf buf

theorem decStart_decodesAt (h : presentsDecode s buf off) : (decStart s).DecodesAt buf off 0 := by
  obtain ⟨hoff, hlen, hbuf⟩ := h
  exact ⟨rfl, rfl, hoff, hlen, hbuf⟩

/-- Past the buffer a group step reads nothing and fails as the loop does. -/
theorem State.DecodesAt.decGroupStep_past (h : s.DecodesAt buf off i) (hb : buf.length ≤ off + i.val) :
    decReadIndex s = none ∧ decGroupStep s = .next (s.raise .truncated) := by
  refine ⟨?_, Machine.decGroupStep_past h.phase (by rw [h.len, h.off]; exact hb)⟩
  rw [decReadIndex_reading h.phase, h.off, h.len, if_neg (Nat.not_lt.mpr hb)]

/-- Inside the buffer a group step reads the byte of group `i` and takes it. -/
theorem State.DecodesAt.decGroupStep_within (h : s.DecodesAt buf off i) {b : Byte}
    (hb : buf[off + i.val]? = some b) :
    decReadIndex s = some (off + i.val) ∧ decGroupStep s = .next (decTakeByte s i b) := by
  obtain ⟨hlt, -⟩ := List.getElem?_eq_some_iff.mp hb
  refine ⟨?_, Machine.decGroupStep_within h.phase (by rw [h.len, h.off]; exact hlt) ?_⟩
  · rw [decReadIndex_reading h.phase, h.off, h.len, if_pos hlt]
  · rw [h.off, h.ibuf _ hlt, hb]

/-- A byte taken ends the DECODE with the loop's result on the ports, `i + 1` bytes read, or leads to the
next group with what is left of the loop. -/
theorem State.DecodesAt.decTakeByte_cases (h : s.DecodesAt buf off i) {b : Byte}
    (hb : buf[off + i.val]? = some b) (k : Nat) :
    (decResult (decTakeByte s i b) = some (decodeLoop buf off (k + 1) i s.dec.acc) ∧
      decReadCount buf off (decodeLoop buf off (k + 1) i s.dec.acc) = i.val + 1) ∨
    ∃ j : Fin 5, j.val = i.val + 1 ∧ (decTakeByte s i b).DecodesAt buf off j ∧
      decodeLoop buf off (k + 1) i s.dec.acc = decodeLoop buf off k j (decTakeByte s i b).dec.acc := by
  have hloop := decodeLoop_within hb k s.dec.acc
  rcases Machine.decTakeByte_cases s i b with ⟨ho, ht⟩ | ⟨ho, hc, ht⟩ | ⟨ho, hc, hi, ht⟩ |
    ⟨ho, hc, hi, ht⟩ <;> rw [ht]
  case inl =>
    rw [if_pos ho] at hloop
    exact .inl (hloop ▸ ⟨rfl, by simp [decReadCount, eq_four_of_ovfdet ho]⟩)
  case inr.inl =>
    simp only [ho, hc, Bool.false_eq_true, if_false, Bool.not_false, if_true] at hloop
    refine .inl (hloop ▸ ⟨?_, ?_⟩)
    · simp [decResult, h.group, BitVec.ofNat_add]
    · simp only [decReadCount, BitVec.toNat_ofNat]
      omega
  case inr.inr.inl =>
    simp only [ho, hc, grplim_true, decide_eq_true hi, Bool.not_true, Bool.false_eq_true, if_false, if_true]
      at hloop
    exact .inl (hloop ▸ ⟨rfl, by simp [decReadCount, hi]⟩)
  case inr.inr.inr =>
    have hj : (i + 1).val = i.val + 1 := Fin.val_add_one_of_lt (Fin.lt_def.mpr hi)
    exact .inr ⟨i + 1, hj, ⟨rfl, by simp [hj], h.off, h.len, h.ibuf⟩,
      by simp [hloop, ho, hc, hi.ne, grplim_true, hj]⟩

/-! ### The indices read -/

theorem decReading_of_decResult {r : ResultDEC} (h : decResult s = some r) : s.decReading = false :=
  (decReading_eq_false_iff s).mpr fun i hi => by simp [decResult, hi] at h

theorem decReads_of_not_reading (h : s.decReading = false) (n : Nat) : decReads n s = [] := by
  have hidx : decReadIndex s = none := by
    unfold decReadIndex
    split
    case h_1 i hi => exact absurd hi ((decReading_eq_false_iff s).mp h i)
    all_goals rfl
  induction n with
  | zero => rfl
  | succ n ih => simp [decReads, hidx, decGroupStep_of_not_reading h, ih]

/-- With group `i` to come and enough group steps left, the indices of the groups before it and those still
to be read are together the ones the loop's result counts. -/
theorem State.DecodesAt.decReads_eq (h : s.DecodesAt buf off i) {k n : Nat} (hk : i.val + k = 5)
    (hn : k ≤ n) (hi : i.val ≤ buf.length - off) :
    (List.range i).map (off + ·) ++ decReads n s =
      (List.range (decReadCount buf off (decodeLoop buf off k i s.dec.acc))).map (off + ·) := by
  induction k generalizing s i n with
  | zero => omega
  | succ k ih =>
    obtain ⟨n, rfl⟩ : ∃ m, n = m + 1 := ⟨n - 1, by omega⟩
    rcases Nat.lt_or_ge (off + i.val) buf.length with hlt | hge
    · have hb := List.getElem?_eq_getElem hlt
      obtain ⟨hidx, hstep⟩ := h.decGroupStep_within hb
      have happ : (List.range i).map (off + ·) ++ decReads (n + 1) s =
          (List.range (i.val + 1)).map (off + ·) ++ decReads n (decTakeByte s i buf[off + i.val]) := by
        simp [decReads, hidx, hstep, List.range_succ]
      rw [happ]
      rcases h.decTakeByte_cases hb k with ⟨hres, hcount⟩ | ⟨j, hj, hnext, hloop⟩
      · rw [decReads_of_not_reading (decReading_of_decResult hres), hcount, List.append_nil]
      · rw [hloop, ← hj]
        exact ih hnext (by omega) (by omega) (by omega)
    · obtain ⟨hidx, hstep⟩ := h.decGroupStep_past hge
      have hend : decReads n (s.raise .truncated) = [] := decReads_of_not_reading rfl n
      have hlen : buf.length - off = i.val := by omega
      simp [decReads, hidx, hstep, hend, decodeLoop_past hge, decReadCount, hlen]

/-- Settles O34: from the start step the group steps go along with the loop of R126, which reads the next
index in each iteration but the one that finds Truncated. -/
theorem decodeReadsExactlyTheBytesItNeeds : Obligations.DecodeReadsExactlyTheBytesItNeeds := by
  intro s t buf off k hp h hk
  obtain ⟨-, rfl⟩ := execDecode_next h
  exact (decStart_decodesAt hp).decReads_eq rfl hk (Nat.zero_le _)

end Sys2Proof.Machine
end

section
/-! PROOFS. The OBUF indices of an ENCODE and when OBUF is complete (20_memory.md R48, R51); O23 and O48. -/

namespace Sys2Proof.Machine

variable {s : State}

/-! ### The indices written -/

theorem encWrites_of_not_busy (h : s.encBusy = false) (k : Nat) : encWrites k s = [] := by
  induction k with
  | zero => rfl
  | succ k ih => simp [encWrites, encWriteIndex, h, encGroupStep_of_not_busy h, ih]

theorem encWrites_succ_of_busy (h : s.encBusy = true) (k : Nat) :
    encWrites (k + 1) s = s.enc.i.toNat :: encWrites k (encGroupStep s) := by
  simp [encWrites, encWriteIndex, h]

/-- With group `enc_i` to come and enough group steps left, the indices written before and those still to be
written are together 0 to `enc_n - 1`. -/
theorem range_append_encWrites (hb : s.encBusy = true) {k : Nat} (hi : s.enc.i.toNat < s.enc.n.toNat)
    (hk : s.enc.n.toNat ≤ s.enc.i.toNat + k) :
    List.range s.enc.i.toNat ++ encWrites k s = List.range s.enc.n.toNat := by
  induction k generalizing s with
  | zero => omega
  | succ k ih =>
    have hsucc := encIndex_succ_toNat hi
    have hn : (encGroupStep s).enc.n = s.enc.n := by rw [encGroupStep_of_busy hb]; rfl
    have hi' : (encGroupStep s).enc.i.toNat = s.enc.i.toNat + 1 := by
      rw [encGroupStep_of_busy hb]; exact hsucc
    have happ : List.range s.enc.i.toNat ++ encWrites (k + 1) s =
        List.range (s.enc.i.toNat + 1) ++ encWrites k (encGroupStep s) := by
      simp [encWrites_succ_of_busy hb, List.range_succ]
    rw [happ]
    by_cases hd : s.enc.i + 1#3 = s.enc.n
    · have hrest : (encGroupStep s).encBusy = false := by
        rw [encGroupStep_of_busy hb]; simp [State.encBusy, hd]
      rw [encWrites_of_not_busy hrest, List.append_nil, ← hsucc, hd]
    · have hbusy : (encGroupStep s).encBusy = true := by
        rw [encGroupStep_of_busy hb]; simp [State.encBusy, hd]
      have hne : (s.enc.i + 1#3).toNat ≠ s.enc.n.toNat := mt BitVec.eq_of_toNat_eq hd
      rw [← hi', ← hn]
      exact ih hbusy (by rw [hi', hn]; omega) (by rw [hi', hn]; omega)

/-- Settles O23: an ENCODE in range starts at index 0 with `enc_n` at most 5, and one that failed is in no
phase that writes. -/
theorem encodeWritesEachIndexOnceInOrder : Obligations.EncodeWritesEachIndexOnceInOrder := by
  intro s t k h hk
  obtain ⟨-, ⟨hr, rfl⟩ | ⟨hr, rfl⟩⟩ := execEncode_next h
  · obtain ⟨hn1, hn5⟩ := bytecount_range (encValuePart s.ports.encIn)
    have hw := range_append_encWrites (s := encStart s) (k := k) rfl hn1 (hn5.trans (by simpa using hk))
    simpa [hr] using hw
  · have hw := encWrites_of_not_busy (s := s.raise .invalidInput) rfl k
    simpa [hr] using hw

/-! ### OBUF when the phase is `Done` -/

theorem encodeBytes_length (v : Word) : (encodeBytes v).length = (bytecount v).toNat := by
  simp [encodeBytes]

/-- At the end of an ENCODE, OBUF is the byte space of the value's bytes (R107). -/
theorem obuf_of_done (hs : s.EncInv) (hc : s.encCoherent) (hd : s.enc.phase = .done) :
    s.enc.n = bytecount s.enc.val ∧ s.enc.obuf = memOfBytes (encodeBytes s.enc.val) := by
  obtain ⟨hin, -, -, -⟩ := hs.done hd
  obtain ⟨hn, hobuf⟩ := hc (.inr hd)
  rw [hin, hn] at hobuf
  exact ⟨hn, hobuf⟩

theorem encResult_of_done (h : s.enc.phase = .done) :
    encResult s = some (.ok (memBytes s.enc.obuf s.enc.n.toNat)) := by
  simp [encResult, h]

/-- Settles O48: the invariant ties OBUF to the value in flight, and every port asks for the phase `Done`. -/
theorem obufIsCompleteExactlyWhenDone : Obligations.ObufIsCompleteExactlyWhenDone := by
  intro s hs hc
  refine ⟨fun hd => ?_, fun hd => ⟨if_neg hd, fun k => if_neg fun ⟨h, _⟩ => hd h⟩⟩
  obtain ⟨hn, hobuf⟩ := obuf_of_done hs.enc hc hd
  have hlen : s.enc.n.toNat = (encodeBytes s.enc.val).length := by rw [hn, encodeBytes_length]
  refine ⟨by rw [encResult_of_done hd, hobuf, hlen, memBytes_memOfBytes], fun k => ?_⟩
  unfold obufLane
  split
  case isTrue => rw [hobuf, memRead_memOfBytes]
  case isFalse h =>
    rw [List.getElem?_eq_none]
    rw [← hlen]
    exact Nat.not_lt.mp fun hk => h ⟨hd, hk⟩

end Sys2Proof.Machine
end

section
/-! PROOFS. The frames of commands and of group steps, the input of a DECODE in flight, and one operation at
a time (20_memory.md R40, R41, R51); O50, O51, O52, O53, O55 and O58. -/

namespace Sys2Proof.Machine

variable {s t : State}

/-! ### Frames -/

/-- Settles O51: each command is an update of its own unit. -/
theorem commandsLeaveOtherUnitsAlone : Obligations.CommandsLeaveOtherUnitsAlone := by
  intro s t
  refine ⟨fun h => ?_, fun h => ?_, fun h => ?_⟩
  · obtain ⟨-, rfl⟩ := startUnit_next h
    exact ⟨rfl, rfl, rfl, rfl, fun _ => ⟨rfl, rfl⟩⟩
  · obtain ⟨-, ⟨hr, rfl⟩ | ⟨hr, rfl⟩⟩ := execEncode_next h
    · exact ⟨rfl, rfl, rfl, rfl, fun _ => ⟨rfl, by simp [hr]⟩⟩
    · exact ⟨rfl, rfl, rfl, rfl, fun _ => ⟨rfl, by simp [hr, raise_invalidInput]⟩⟩
  · obtain ⟨-, rfl⟩ := execDecode_next h
    exact ⟨rfl, rfl, rfl, rfl, fun _ => ⟨rfl, rfl⟩⟩

/-- Settles O52: a group step is an update of the Decoder that keeps the operands it latched. -/
theorem decodeGroupStepFrame : Obligations.DecodeGroupStepFrame := by
  intro s t h
  obtain ⟨d, hoff, hlen, rfl⟩ := decGroupStep_setDec h
  exact ⟨rfl, rfl, rfl, rfl, hoff, hlen, fun _ => ⟨rfl, rfl⟩⟩

/-! ### Group steps of the two units -/

theorem decTakeByte_setEnc (s : State) (e : EncRegs) (i : Fin 5) (b : Byte) :
    decTakeByte (s.setEnc e) i b = (decTakeByte s i b).setEnc e := by
  dsimp only [decTakeByte]
  split_ifs <;> rfl

/-- A DECODE group step neither reads nor writes the Encoder. -/
theorem decGroupStep_setEnc (s : State) (e : EncRegs) :
    (∃ t, decGroupStep s = .next t ∧ decGroupStep (s.setEnc e) = .next (t.setEnc e)) ∨
      ∃ f, decGroupStep s = .fault f ∧ decGroupStep (s.setEnc e) = .fault f := by
  rcases decGroupStep_cases s with ⟨hr, h⟩ | ⟨i, hi, ⟨hb, h⟩ | ⟨hb, b, hm, h⟩ | ⟨hb, hm, h⟩⟩ <;> rw [h]
  · exact .inl ⟨_, rfl, decGroupStep_of_not_reading hr⟩
  · exact .inl ⟨_, rfl, decGroupStep_past (s := s.setEnc e) hi hb⟩
  · exact .inl ⟨_, rfl, decTakeByte_setEnc s e i b ▸ decGroupStep_within (s := s.setEnc e) hi hb hm⟩
  · exact .inr ⟨_, rfl, decGroupStep_not_supplied (s := s.setEnc e) hi hb hm⟩

/-- What an ENCODE group step writes depends on the Encoder alone. -/
theorem encGroupStep_enc_of_enc_eq (h : t.enc = s.enc) : (encGroupStep t).enc = (encGroupStep s).enc := by
  cases hb : s.encBusy with
  | false =>
    have hb' : t.encBusy = false := by rwa [State.encBusy, h]
    rw [encGroupStep_of_not_busy hb, encGroupStep_of_not_busy hb', h]
  | true =>
    have hb' : t.encBusy = true := by rwa [State.encBusy, h]
    rw [encGroupStep_of_busy hb, encGroupStep_of_busy hb', h]
    rfl

/-- Settles O55: each group step is an update of its own unit that reads nothing of the other. -/
theorem unitStepsCommute : Obligations.UnitStepsCommute := by
  intro s
  rw [encGroupStep_eq_setEnc s]
  obtain ⟨u, hu, hu'⟩ | ⟨g, hg, hg'⟩ := decGroupStep_setEnc s (encGroupStep s).enc
  · refine ⟨fun t h => ?_, fun f h => by simp [hu] at h⟩
    obtain rfl : u = t := by simpa [hu] using h
    obtain ⟨d, -, -, rfl⟩ := decGroupStep_setDec hu
    rw [hu', encGroupStep_eq_setEnc (s.setDec d), encGroupStep_enc_of_enc_eq (setDec_enc s d)]
  · exact ⟨fun t h => by simp [hg] at h, fun f h => by rw [hg', ← hg, h]⟩

/-! ### Faults -/

/-- No `start` faults (R69, R165). -/
theorem exec_ne_fault (i : Instr) (s : State) (f : Fault) : exec i s ≠ .fault f := by
  have start (u : UnitName) (t : State) : startUnit s u t ≠ .fault f := by
    unfold startUnit
    split <;> nofun
  cases i with
  | bytecount => exact start _ _
  | encode => exact start _ _
  | decode => exact start _ _
  | reserved3 => nofun

theorem autoStep_fault {f : Fault} (h : autoStep s = .fault f) : decGroupStep s = .fault f := by
  unfold autoStep at h
  split at h
  · cases h
  · exact h

/-- A step that faults is a DECODE group step, by the block itself, a grant or a wait. -/
theorem step_fault {f : Fault} (h : step s = .fault f) :
    ∃ l, (∀ m ∈ l, m ∈ s.inputs) ∧ decGroupStep (s.setInputs l) = .fault f := by
  cases hs : s.inputs with
  | nil =>
    have hauto : autoStep s = .fault f := by simpa [step, hs] using h
    exact ⟨s.inputs, by simp [hs], autoStep_fault hauto⟩
  | cons m rest =>
    cases m with
    | start op =>
      have h' : exec (decodeOp op) (s.setInputs rest) = .fault f := by simpa [step, hs] using h
      exact absurd h' (exec_ne_fault _ _ f)
    | await =>
      have h' : awaitStep s rest = .fault f := by simpa [step, hs] using h
      unfold awaitStep at h'
      split at h'
      · exact ⟨s.inputs, by simp [hs], autoStep_fault h'⟩
      · cases h'
    | driveDec off len buf =>
      have h' : driveDecoder (s.setInputs rest) off len buf = .fault f := by simpa [step, hs] using h
      unfold driveDecoder at h'
      split at h' <;> cases h'
    | grantDec => exact ⟨rest, fun _ => List.mem_cons_of_mem _, by simpa [step, hs] using h⟩
    | driveBle | driveEnc | grantEnc | reset => simp [step, hs] at h

/-- With the operands on the ports and IBUF supplied, the index of a read is one of a byte supplied (R41). -/
theorem decGroupStep_ne_fault (hs : s.HostInv) (f : Fault) : decGroupStep s ≠ .fault f := by
  rcases decGroupStep_cases s with ⟨-, h⟩ | ⟨i, hi, ⟨-, h⟩ | ⟨-, b, -, h⟩ | ⟨hb, hm, h⟩⟩ <;> rw [h]
  case inr.inr.inr =>
    obtain ⟨-, hlen⟩ := hs.stable ((decReading_iff s).mpr ⟨i, hi⟩)
    have hsup := hs.supplied _ (hlen ▸ hb)
    simp [hm] at hsup
  all_goals nofun

/-- Settles O50: only a DECODE group step can fault, and the host's duties supply the byte it reads. -/
theorem dutifulHostsNeverCauseAFault : Obligations.DutifulHostsNeverCauseAFault := by
  intro s hs f h
  obtain ⟨l, hl, hd⟩ := step_fault h
  exact decGroupStep_ne_fault (hs.setInputs hl).host f hd

/-! ### The input of a DECODE in flight -/

theorem anyBusy_of_reading {i : Fin 5} (h : s.dec.phase = .reading i) : s.anyBusy = true :=
  anyBusy_of_inFlight (u := .decoder) ((decReading_iff s).mpr ⟨i, h⟩)

theorem step_of_driveDec {off len : Nat} {buf : Memory} {rest : List HostMove}
    (hi : s.inputs = .driveDec off len buf :: rest) :
    step s = driveDecoder (s.setInputs rest) off len buf := by
  simp [step, hi]

/-- Settles O53: of what a step can do, a DECODE drive and a `start` need a Decoder that does not read, a
reset leaves the ports, and nothing else writes the input. -/
theorem inputIsStableDuringDecode : Obligations.InputIsStableDuringDecode := by
  refine ⟨fun s t i hp h => ?_, fun s i off len buf rest hp hi => ?_⟩
  · obtain ⟨l, -, rfl, -, -, -⟩ | ⟨l, hd, -, -, -⟩ | ⟨l, rfl, -, -, -⟩ | ⟨v, rest, -, rfl⟩ |
      ⟨x, rest, -, rfl⟩ | ⟨off, len, buf, rest, -, hr, -⟩ | ⟨op, rest, -, hx⟩ | ⟨rest, hi, rfl⟩ :=
      step_cases h
    · simp
    · obtain ⟨d, hoff, hlen, rfl⟩ := decGroupStep_setDec hd
      exact ⟨rfl, rfl, rfl, .inr ⟨hoff, hlen⟩⟩
    · exact ⟨rfl, rfl, rfl, .inr ⟨rfl, rfl⟩⟩
    · exact ⟨rfl, rfl, rfl, .inr ⟨rfl, rfl⟩⟩
    · exact ⟨rfl, rfl, rfl, .inr ⟨rfl, rfl⟩⟩
    · exact absurd hp ((decReading_eq_false_iff s).mp hr i)
    · obtain ⟨hfree, -⟩ := exec_next hx
      simp [anyBusy_of_reading hp] at hfree
    · exact ⟨rfl, rfl, rfl, .inl ⟨rest, hi⟩⟩
  · have hr : (s.setInputs rest).decReading = true := (decReading_iff s).mpr ⟨i, hp⟩
    rw [step_of_driveDec hi, driveDecoder, if_pos hr]

/-! ### One operation at a time -/

/-- At most one unit of the instance is in flight (R51). -/
def State.AtMostOneInFlight (s : State) : Prop := s.encBusy = false ∨ s.decReading = false

theorem encGroupStep_atMostOneInFlight (hs : s.AtMostOneInFlight) : (encGroupStep s).AtMostOneInFlight := by
  obtain hb | hr := hs
  · rw [encGroupStep_of_not_busy hb]
    exact .inl hb
  · rw [encGroupStep_eq_setEnc]
    exact .inr hr

theorem decGroupStep_atMostOneInFlight (hs : s.AtMostOneInFlight) (h : decGroupStep s = .next t) :
    t.AtMostOneInFlight := by
  obtain hb | hr := hs
  · obtain ⟨d, -, -, rfl⟩ := decGroupStep_setDec h
    exact .inl hb
  · rw [decGroupStep_of_not_reading hr] at h
    cases h
    exact .inr hr

/-- A command finds no unit in flight and starts its own at most. -/
theorem exec_atMostOneInFlight {i : Instr} (h : exec i s = .next t) : t.AtMostOneInFlight := by
  obtain ⟨hfree, hcases⟩ := exec_next h
  obtain ⟨hb, hr⟩ := (anyBusy_eq_false_iff s).mp hfree
  obtain ⟨-, rfl⟩ | ⟨-, -, rfl⟩ | ⟨-, -, rfl⟩ | ⟨-, rfl⟩ := hcases
  · exact .inl hb
  · exact .inr hr
  · exact .inr hr
  · exact .inl hb

theorem step_atMostOneInFlight (hs : s.AtMostOneInFlight) (h : step s = .next t) :
    t.AtMostOneInFlight := by
  obtain ⟨l, -, rfl, -, -, -⟩ | ⟨l, hd, -, -, -⟩ | ⟨l, rfl, -, -, -⟩ | ⟨v, rest, -, rfl⟩ |
    ⟨x, rest, -, rfl⟩ | ⟨off, len, buf, rest, -, -, rfl⟩ | ⟨op, rest, -, hx⟩ | ⟨rest, -, rfl⟩ :=
    step_cases h
  · exact encGroupStep_atMostOneInFlight (s := s.setInputs l) hs
  · exact decGroupStep_atMostOneInFlight (s := s.setInputs l) hs hd
  · exact hs
  · exact hs
  · exact hs
  · exact hs
  · exact exec_atMostOneInFlight hx
  · exact .inl rfl

/-- What every step keeps, every run keeps. -/
theorem run_keeps {M : Host.Core} {P : M.State → Prop} (hstep : ∀ s t, P s → M.step s = .next t → P t)
    {k : Nat} {s t : M.State} (hs : P s) (h : M.run k s = .next t) : P t := by
  induction k generalizing s with
  | zero =>
    cases h
    exact hs
  | succ k ih =>
    unfold Host.Core.run at h
    split at h
    case h_1 u hu => exact ih (hstep s u hs hu) h
    all_goals cases h

/-- Settles O58: reset has no unit in flight, a command is taken only then, and no other step starts one. -/
theorem oneOperationRunsAtATime : Obligations.OneOperationRunsAtATime := by
  refine ⟨rfl, fun i s t h => ?_, fun s t h hs => step_atMostOneInFlight hs h, fun moves k t h => ?_⟩
  · obtain ⟨hfree, -⟩ := exec_next h
    exact hfree
  · exact run_keeps (M := core) (P := State.AtMostOneInFlight) (fun _ _ => step_atMostOneInFlight) (.inl rfl) h

end Sys2Proof.Machine
end

section
/-! PROOFS. The Decoder's verdict on every byte sequence and the value it decodes (30_encoding.md R61, R66;
42_decoder.md R136); O35 and O36. The bytes from `dec_off` on run out, terminate or overflow; along the bytes
that continue, the loop of R126 gathers their payloads at their weights. -/

namespace Sys2Proof.Machine

variable {buf : List Byte} {off t : Nat} {acc : Word}

/-! ### The overflow detector -/

theorem not_ovfdet_of_lt {p : Payload} {g : Nat} (hg : g < 4) : ovfdet p g = false :=
  Bool.eq_false_iff.mpr fun h => hg.ne (eq_four_of_ovfdet h)

/-- Of an input byte the detector reads bits 6 to 4. -/
theorem ovfdet_contscan (b : Byte) (g : Nat) :
    ovfdet (contscan b).2 g = (g == 4 && b.extractLsb' 4 3 != 0#3) := by
  have h : (b.extractLsb' 0 7).extractLsb' 4 3 = b.extractLsb' 4 3 := by
    ext k hk
    simp
  simp [ovfdet, contscan, h]

/-! ### The accumulator's OR is an addition -/

/-- Up to group 4 the shifter loses no bit of the payload (R122). -/
theorem dshift_toNat (p : Payload) {g : Nat} (hg : g ≤ 4) : (dshift p g).toNat = p.toNat * 2 ^ (7 * g) := by
  have hlt : p.toNat * 2 ^ (7 * g) < 2 ^ 35 :=
    calc p.toNat * 2 ^ (7 * g) < 2 ^ 7 * 2 ^ (7 * g) := Nat.mul_lt_mul_of_pos_right p.isLt (Nat.two_pow_pos _)
      _ = 2 ^ (7 * (g + 1)) := by rw [← pow_add]; congr 1; omega
      _ ≤ 2 ^ 35 := Nat.pow_le_pow_right (by decide) (by omega)
  have hp : p.toNat < 2 ^ 35 := p.isLt.trans (by decide)
  rw [dshift, BitVec.toNat_shiftLeft, BitVec.toNat_setWidth, Nat.shiftLeft_eq, Nat.mod_eq_of_lt hp,
    Nat.mod_eq_of_lt hlt]

/-- A payload the overflow detector lets pass stays below bit 32 at its group (R124). -/
theorem dshift_lt_of_not_ovfdet {p : Payload} {g : Nat} (hg : g ≤ 4) (ho : ovfdet p g = false) :
    (dshift p g).toNat < 2 ^ 32 := by
  rcases Nat.lt_or_eq_of_le hg with hlt | rfl
  · exact (dshift_lt p g).trans (Nat.pow_lt_pow_right (by decide) (by omega))
  · have hup : p.extractLsb' 4 3 = 0#3 := by simpa [ovfdet] using ho
    have hdiv : p.toNat / 2 ^ 4 % 2 ^ 3 = 0 := by
      rw [← Nat.shiftRight_eq_div_pow, ← BitVec.extractLsb'_toNat, hup]
      rfl
    rw [dshift_toNat p le_rfl]
    omega

/-- Below the bits of group `g` the OR adds the payload at its weight, where no overflow is detected (R136). -/
theorem accUpdate_toNat_of_not_ovfdet {p : Payload} {g : Nat} (hg : g ≤ 4) (hacc : acc.toNat < 2 ^ (7 * g))
    (ho : ovfdet p g = false) : (accUpdate acc (dshift p g)).toNat = acc.toNat + p.toNat * 2 ^ (7 * g) := by
  have hsh : ((dshift p g).extractLsb' 0 32).toNat = p.toNat * 2 ^ (7 * g) := by
    rw [BitVec.extractLsb'_toNat, Nat.shiftRight_zero, Nat.mod_eq_of_lt (dshift_lt_of_not_ovfdet hg ho),
      dshift_toNat p hg]
  rw [accUpdate, BitVec.toNat_or, hsh, Nat.or_comm, Nat.mul_comm, ← Nat.two_pow_add_eq_or_of_lt hacc, Nat.add_comm]

/-! ### What can stand at `dec_off` -/

/-- Every byte of `l` has continuation bit 1. -/
def Continues (l : List Byte) : Prop := ∀ b ∈ l, b.getLsbD 7 = true

/-- Fewer than five bytes, and each asks for another (R66). -/
def RunsOut (l : List Byte) : Prop := l.length < 5 ∧ Continues l

/-- Byte `t` is the first with continuation bit 0, and a fifth one has no upper payload bit (R65, R66). -/
def TerminatesAt (l : List Byte) (t : Nat) (b : Byte) : Prop :=
  t ≤ 4 ∧ Continues (l.take t) ∧ l[t]? = some b ∧ b.getLsbD 7 = false ∧ (t = 4 → b.extractLsb' 4 3 = 0#3)

/-- Four bytes that continue, and a fifth with a bit among its upper four (R65, R66). -/
def Overflows (l : List Byte) : Prop :=
  Continues (l.take 4) ∧ ∃ b, l[4]? = some b ∧ (b.extractLsb' 4 3 ≠ 0#3 ∨ b.getLsbD 7 = true)

/-- Of the first `n` bytes, those before the first that does not continue. -/
theorem exists_take_continues (l : List Byte) (n : Nat) :
    ∃ t ≤ n, t ≤ l.length ∧ Continues (l.take t) ∧ (t < n → ∀ b, l[t]? = some b → b.getLsbD 7 = false) := by
  induction n generalizing l with
  | zero => exact ⟨0, le_rfl, Nat.zero_le _, by simp [Continues], by simp⟩
  | succ n ih =>
    cases l with
    | nil => exact ⟨0, Nat.zero_le _, le_rfl, by simp [Continues], by simp⟩
    | cons b l =>
      cases hb : b.getLsbD 7 with
      | false => exact ⟨0, Nat.zero_le _, Nat.zero_le _, by simp [Continues],
          fun _ _ h => Option.some.inj h ▸ hb⟩
      | true =>
        obtain ⟨t, htn, hlen, hc, hstop⟩ := ih l
        exact ⟨t + 1, by omega, Nat.succ_le_succ hlen, by simpa [Continues, hb] using hc,
          fun h => hstop (by omega)⟩

/-- There is nothing else that can stand there (R66). -/
theorem runsOut_or_terminatesAt_or_overflows (l : List Byte) :
    RunsOut l ∨ (∃ t b, TerminatesAt l t b) ∨ Overflows l := by
  obtain ⟨t, ht, hlen, hc, hstop⟩ := exists_take_continues l 4
  cases hb : l[t]? with
  | none =>
    have hend : l.length ≤ t := List.getElem?_eq_none_iff.mp hb
    exact .inl ⟨by omega, by rwa [List.take_of_length_le hend] at hc⟩
  | some b =>
    by_cases hok : b.getLsbD 7 = false ∧ (t = 4 → b.extractLsb' 4 3 = 0#3)
    · exact .inr (.inl ⟨t, b, ht, hc, hb, hok⟩)
    · obtain rfl : t = 4 := by
        by_contra hne
        exact hok ⟨hstop (by omega) b hb, fun h => absurd h hne⟩
      exact .inr (.inr ⟨hc, b, hb, by cases hb7 : b.getLsbD 7 <;> simp_all⟩)

/-! ### The loop along bytes that continue -/

/-- The sum of the payloads of `l`, each at its group's weight (R61). -/
def payloadSum (l : List Byte) : Nat := (l.mapIdx fun j b => (b.extractLsb' 0 7).toNat * 2 ^ (7 * j)).sum

theorem payloadSum_take_succ {l : List Byte} {b : Byte} (hb : l[t]? = some b) :
    payloadSum (l.take (t + 1)) = payloadSum (l.take t) + (contscan b).2.toNat * 2 ^ (7 * t) := by
  obtain ⟨hlt, -⟩ := List.getElem?_eq_some_iff.mp hb
  simp [payloadSum, List.take_add_one, hb, List.mapIdx_append, contscan, Nat.min_eq_left hlt.le]

/-- The DECODE of `buf` at `off` comes to group `t`, with the sum of the payloads before it accumulated. -/
structure ReachesGroup (buf : List Byte) (off t : Nat) (acc : Word) : Prop where
  loop : decodeTx buf off = decodeLoop buf off (4 - t + 1) t acc
  sum : acc.toNat = payloadSum ((buf.drop off).take t)
  lt : acc.toNat < 2 ^ (7 * t)

theorem ReachesGroup.accUpdate_toNat (h : ReachesGroup buf off t acc) {b : Byte} (ht : t ≤ 4)
    (hb : (buf.drop off)[t]? = some b) (ho : ovfdet (contscan b).2 t = false) :
    (accUpdate acc (dshift (contscan b).2 t)).toNat = payloadSum ((buf.drop off).take (t + 1)) := by
  rw [accUpdate_toNat_of_not_ovfdet ht h.lt ho, h.sum, payloadSum_take_succ hb]

/-- A byte that continues leads to the next group. -/
theorem ReachesGroup.succ (h : ReachesGroup buf off t acc) {b : Byte} (ht : t < 4)
    (hb : (buf.drop off)[t]? = some b) (hc : b.getLsbD 7 = true) :
    ReachesGroup buf off (t + 1) (accUpdate acc (dshift (contscan b).2 t)) where
  loop := by
    have ho : ovfdet (contscan b).2 t = false := not_ovfdet_of_lt ht
    have hs : (contscan b).1 = true := hc
    have hk : 4 - t = 4 - (t + 1) + 1 := by omega
    rw [h.loop, decodeLoop_within (List.getElem?_drop ▸ hb), ← hk]
    simp [ho, hs, grplim, ht.ne]
  sum := h.accUpdate_toNat ht.le hb (not_ovfdet_of_lt ht)
  lt := accUpdate_lt h.lt _

/-- Bytes that continue, at most four of them, lead to the group after them. -/
theorem reachesGroup_of_continues (ht : t ≤ 4) (hlen : t ≤ (buf.drop off).length)
    (hc : Continues ((buf.drop off).take t)) : ∃ acc, ReachesGroup buf off t acc := by
  induction t with
  | zero => exact ⟨0#32, rfl, by simp [payloadSum], by simp⟩
  | succ t ih =>
    have hb := List.getElem?_eq_getElem (Nat.lt_of_succ_le hlen)
    rw [List.take_add_one, hb] at hc
    obtain ⟨acc, h⟩ := ih (by omega) (by omega) fun b hm => hc b (List.mem_append_left _ hm)
    exact ⟨_, h.succ (by omega) hb (hc _ (by simp))⟩

/-! ### The verdicts -/

theorem decodeTx_of_runsOut (h : RunsOut (buf.drop off)) : decodeTx buf off = .err .truncated := by
  obtain ⟨hlen, hc⟩ := h
  obtain ⟨acc, hr⟩ := reachesGroup_of_continues (Nat.le_of_lt_succ hlen) le_rfl (by rwa [List.take_length])
  rw [hr.loop, decodeLoop_past (by rw [List.length_drop]; omega)]

theorem decodeTx_of_overflows (h : Overflows (buf.drop off)) : decodeTx buf off = .err .overflow := by
  obtain ⟨hc, b, hb, hbad⟩ := h
  obtain ⟨hlt, -⟩ := List.getElem?_eq_some_iff.mp hb
  obtain ⟨acc, hr⟩ := reachesGroup_of_continues le_rfl hlt.le hc
  rw [hr.loop, decodeLoop_within (List.getElem?_drop ▸ hb), ovfdet_contscan]
  rcases hbad with hup | hcont
  · simp [hup]
  · have hs : (contscan b).1 = true := hcont
    simp [hs, grplim]

theorem decodeTx_of_terminatesAt {b : Byte} (h : TerminatesAt (buf.drop off) t b) :
    ∃ v : Word, decodeTx buf off = .ok v (BitVec.ofNat 3 (t + 1)) ∧
      v.toNat = payloadSum ((buf.drop off).take (t + 1)) := by
  obtain ⟨ht, hc, hb, hstop, hup⟩ := h
  obtain ⟨hlt, -⟩ := List.getElem?_eq_some_iff.mp hb
  obtain ⟨acc, hr⟩ := reachesGroup_of_continues ht hlt.le hc
  have ho : ovfdet (contscan b).2 t = false := by simpa [ovfdet_contscan] using hup
  have hs : (contscan b).1 = false := hstop
  refine ⟨_, ?_, hr.accUpdate_toNat ht hb ho⟩
  rw [hr.loop, decodeLoop_within (List.getElem?_drop ▸ hb)]
  simp [ho, hs]

/-- Each of the three things that can stand at `dec_off` has its own verdict. -/
theorem decodeTx_cases (buf : List Byte) (off : Nat) :
    (RunsOut (buf.drop off) ∧ decodeTx buf off = .err .truncated) ∨
    (∃ (t : Nat) (b : Byte) (v : Word), TerminatesAt (buf.drop off) t b ∧
      decodeTx buf off = .ok v (BitVec.ofNat 3 (t + 1)) ∧ v.toNat = payloadSum ((buf.drop off).take (t + 1))) ∨
    (Overflows (buf.drop off) ∧ decodeTx buf off = .err .overflow) := by
  rcases runsOut_or_terminatesAt_or_overflows (buf.drop off) with hr | ⟨t, b, ht⟩ | ho
  · exact .inl ⟨hr, decodeTx_of_runsOut hr⟩
  · obtain ⟨v, hv, hsum⟩ := decodeTx_of_terminatesAt ht
    exact .inr (.inl ⟨t, b, v, ht, hv, hsum⟩)
  · exact .inr (.inr ⟨ho, decodeTx_of_overflows ho⟩)

/-- The bytes of a successful DECODE terminate, at its last byte. -/
theorem terminatesAt_of_decodeTx_ok {v : Word} {c : Count} (h : decodeTx buf off = .ok v c) :
    ∃ t b, TerminatesAt (buf.drop off) t b ∧ c.toNat = t + 1 ∧
      v.toNat = payloadSum ((buf.drop off).take (t + 1)) := by
  rcases decodeTx_cases buf off with ⟨-, hv⟩ | ⟨t, b, v', hterm, hv, hsum⟩ | ⟨-, hv⟩
  case inr.inl =>
    obtain ⟨rfl, rfl⟩ : v' = v ∧ BitVec.ofNat 3 (t + 1) = c := by simpa [hv] using h
    have ht : t ≤ 4 := hterm.1
    exact ⟨t, b, hterm, by rw [BitVec.toNat_ofNat]; omega, hsum⟩
  all_goals simp [hv] at h

/-- Settles O35: the verdicts differ, so each of them says what stands at `dec_off`. -/
theorem decodeClassifiesItsInput : Obligations.DecodeClassifiesItsInput := by
  intro buf off
  refine ⟨⟨fun h => ?_, decodeTx_of_runsOut⟩, fun c => ⟨?_, ?_⟩, ⟨fun h => ?_, decodeTx_of_overflows⟩⟩
  · rcases decodeTx_cases buf off with ⟨hr, -⟩ | ⟨t, b, v, -, hv, -⟩ | ⟨-, hv⟩
    · exact hr
    all_goals simp [hv] at h
  · rintro ⟨v, h⟩
    obtain ⟨t, b, ⟨ht, hcont, hb, hstop, hup⟩, hc, -⟩ := terminatesAt_of_decodeTx_ok h
    exact ⟨t, b, ht, hc, hcont, hb, hstop, hup⟩
  · rintro ⟨t, b, ht, hc, hcont, hb, hstop, hup⟩
    obtain ⟨v, hv, -⟩ := decodeTx_of_terminatesAt ⟨ht, hcont, hb, hstop, hup⟩
    exact ⟨v, by rw [hv, ← hc, BitVec.ofNat_toNat, BitVec.setWidth_eq]⟩
  · rcases decodeTx_cases buf off with ⟨-, hv⟩ | ⟨t, b, v, -, hv, -⟩ | ⟨ho, -⟩
    case inr.inr => exact ho
    all_goals simp [hv] at h

/-- Settles O36: a successful DECODE terminates at byte `t`, with the payloads up to it summed. -/
theorem decodedValueIsThePayloadSum : Obligations.DecodedValueIsThePayloadSum := by
  intro buf off v c h
  obtain ⟨t, b, ⟨ht, -, hb, -, -⟩, hc, hsum⟩ := terminatesAt_of_decodeTx_ok h
  obtain ⟨hlt, -⟩ := List.getElem?_eq_some_iff.mp hb
  rw [List.length_drop] at hlt
  exact ⟨by omega, by omega, by omega, hc ▸ hsum⟩

end Sys2Proof.Machine
end

section
/-! PROOFS. Command words, the host's moves at the ports, and the fifth byte (30_encoding.md R65, R67 to R69;
70_reset_and_hazards.md R177); O1, O2, O3, O5, O6 and O31. -/

namespace Sys2Proof.Machine

variable {s : State}

/-! ### Command words -/

/-- Settles O1: row by row of the table. -/
theorem commandWordsSpellTheirOperations : Obligations.CommandWordsSpellTheirOperations :=
  ⟨rfl, rfl, rfl, rfl, rfl, rfl⟩

theorem decodeOp_encodeOp (i : Instr) : decodeOp (encodeOp i) = i := by
  cases i <;> rfl

theorem encodeOp_decodeOp (op : Code) : encodeOp (decodeOp op) = op := by
  revert op
  decide

/-- A byte carries its two low bits (R67). -/
theorem commandOfByte_ofNat (n : Nat) : commandOfByte (BitVec.ofNat 8 n) = BitVec.ofNat 2 n := by
  apply BitVec.eq_of_toNat_eq
  simp only [commandOfByte, BitVec.extractLsb'_toNat, BitVec.toNat_ofNat, Nat.shiftRight_zero]
  omega

theorem commandOfByte_setWidth (op : Code) : commandOfByte (op.setWidth 8) = op := by
  rw [← BitVec.ofNat_toNat, commandOfByte_ofNat, BitVec.ofNat_toNat, BitVec.setWidth_eq]

/-- Settles O2: the byte carries the code, and the code table is a bijection. -/
theorem decodeOfEncodeIsTheCommand : Obligations.DecodeOfEncodeIsTheCommand :=
  ⟨fun i rest => by simp [encode, decodeBytes, commandOfByte_setWidth, decodeOp_encodeOp], encodeOp_decodeOp⟩

/-- A table word's command is the one its two low bits spell. -/
theorem decodeTableWord_some {nbits w : Nat} {i : Instr} (h : decodeTableWord nbits w = some i) :
    decodeOp (BitVec.ofNat 2 (w % 2 ^ nbits)) = i := by
  cases nbits with
  | zero => simp [decodeTableWord, tableWordBytes, decodeBytes] at h
  | succ n =>
    have hlen : (n + 1 + 7) / 8 = n / 8 + 1 := by omega
    simpa [decodeTableWord, tableWordBytes, hlen, List.range_succ_eq_map, decodeBytes, commandOfByte_ofNat] using h

/-! ### The host's moves -/

theorem step_of_start {op : Code} {rest : List HostMove} (hi : s.inputs = .start op :: rest) :
    step s = exec (decodeOp op) (s.setInputs rest) := by
  simp [step, hi]

theorem step_presentStart (s : State) (op : Code) : step (presentStart s op) = exec (decodeOp op) s :=
  step_of_start rfl

/-- Settles O3: a `start` presents its code, and a command's code and its table word decode to it. -/
theorem stepRunsThePresentedCommand : Obligations.StepRunsThePresentedCommand := by
  refine ⟨fun s op rest => step_of_start, fun s i => ?_, fun s nbits w i h => ?_⟩
  · rw [step_presentStart, decodeOp_encodeOp]
  · rw [State.withFetchWord, step_presentStart, decodeTableWord_some h]

theorem step_of_driveBle {v : Word} {rest : List HostMove} (hi : s.inputs = .driveBle v :: rest) :
    step s = .next (driveBitLength (s.setInputs rest) v) := by
  simp [step, hi]

theorem step_of_driveEnc {x : EncOperand} {rest : List HostMove} (hi : s.inputs = .driveEnc x :: rest) :
    step s = .next (driveEncoder (s.setInputs rest) x) := by
  simp [step, hi]

/-- While no DECODE reads, its ports may be driven (R41). -/
theorem driveDecoder_of_not_reading (hr : s.decReading = false) (off len : Nat) (buf : Memory) :
    driveDecoder s off len buf =
      .next (s.setPorts { s.ports with decOffIn := off, decLenIn := len, ibuf := buf }) := by
  simp [driveDecoder, hr]

/-- Settles O5: each drive is an update of its own port. -/
theorem hostMovesDriveTheOperandPorts : Obligations.HostMovesDriveTheOperandPorts := by
  intro s rest
  refine ⟨fun v hi => step_of_driveBle hi, fun x hi => step_of_driveEnc hi, fun off len buf hi hr => ?_⟩
  have hfree : (s.setInputs rest).decReading = false := (decReading_eq_false_iff s).mpr hr
  rw [step_of_driveDec hi, driveDecoder_of_not_reading hfree]
  rfl

/-- Settles O6: the code spells the reserved command, which runs nothing. -/
theorem reservedCodeIsRefused : Obligations.ReservedCodeIsRefused :=
  ⟨fun _ => rfl, fun _ _ hi => step_of_start hi⟩

/-! ### The fifth byte -/

/-- The upper four bits of a fifth byte are its continuation bit and the bits the detector reads (R65). -/
theorem and_0xF0_eq_zero_iff (b : Byte) :
    b &&& 0xF0#8 = 0#8 ↔ ovfdet (contscan b).2 4 = false ∧ (contscan b).1 = false := by
  revert b
  decide

/-- Settles O31: of the outcomes of a byte taken at group 4, the one that accepts it needs a silent detector
and continuation bit 0. -/
theorem fifthByteAcceptedExactlyBelow16 : Obligations.FifthByteAcceptedExactlyBelow16 := by
  intro s b hp hlt hm
  refine ⟨_, decGroupStep_within hp hlt hm, ?_⟩
  have hlow : b &&& 0xF0#8 = 0#8 ↔ ovfdet (contscan b).2 (4 : Fin 5) = false ∧ (contscan b).1 = false :=
    and_0xF0_eq_zero_iff b
  rcases decTakeByte_cases s 4 b with ⟨ho, h⟩ | ⟨ho, hc, h⟩ | ⟨ho, hc, -, h⟩ | ⟨-, -, hi, -⟩
  · rw [ne_eq, hlow, h, ho]
    simp [decStatus]
  · rw [ne_eq, hlow, h, ho, hc]
    simp
  · rw [ne_eq, hlow, h, ho, hc]
    simp [decStatus]
  · exact absurd hi (by decide)

end Sys2Proof.Machine
end

section
/-! PROOFS. The BitLengthEstimator (40_bitlength.md R80 to R87): a bit-length is at most `k` exactly when the
value is below `2 ^ k`, and everything about BYTECOUNT follows from it; O8 to O14. -/

namespace Sys2Proof.Machine

/-! ### CLZ32 and OR1 -/

theorem sub_clz32 {x : Word} (hx : x ≠ 0#32) : 31 - clz32 x hx = topBit x 31 :=
  Nat.sub_sub_self (topBit_le x 31)

/-- Settles O8: the bit CLZ32 stops at is the top bit of the word. -/
theorem clzCountsLeadingZeros : Obligations.ClzCountsLeadingZeros := by
  intro x hx
  rw [sub_clz32]
  refine ⟨Nat.sub_le _ _, topBit_set hx 31 le_rfl, fun j hj => ?_⟩
  rcases Nat.lt_or_ge j 32 with hlt | hge
  · exact topBit_above x 31 hj (Nat.le_of_lt_succ hlt)
  · exact BitVec.getLsbD_of_ge x j hge

theorem getLsbD_or1 (v : Word) (k : Nat) : (or1 v).getLsbD k = (decide (k = 0) || v.getLsbD k) := by
  simp [or1, BitVec.getLsbD_one, Bool.or_comm]

theorem log2_lt_iff {x : Word} (hx : x ≠ 0#32) (k : Nat) : Nat.log2 x.toNat < k ↔ x.toNat < 2 ^ k :=
  Nat.log2_lt (BitVec.toNat_ne.mp hx)

/-- The guard keeps a value on its side of every power of two from 2 on. -/
theorem or1_lt_two_pow_iff (v : Word) {k : Nat} (hk : 1 ≤ k) : (or1 v).toNat < 2 ^ k ↔ v.toNat < 2 ^ k := by
  rw [or1, BitVec.toNat_or]
  exact ⟨Nat.left_le_or.trans_lt, fun h => Nat.or_lt_two_pow h (Nat.one_lt_two_pow (by omega))⟩

theorem log2_or1 {v : Word} (hv : v ≠ 0#32) : Nat.log2 (or1 v).toNat = Nat.log2 v.toNat := by
  refine eq_of_forall_gt_iff fun k => ?_
  cases k with
  | zero => simp only [Nat.not_lt_zero]
  | succ k => rw [log2_lt_iff (or1_ne_zero v), log2_lt_iff hv, or1_lt_two_pow_iff v k.succ_pos]

/-- Settles O9: the highest set bit is the binary logarithm, which the powers of two above a value determine. -/
theorem zeroGuardSetsBitZeroOnly : Obligations.ZeroGuardSetsBitZeroOnly :=
  ⟨getLsbD_or1, or1_ne_zero, fun _ => log2_or1, rfl⟩

/-! ### BITLEN and the table -/

theorem bitlen_eq_log2_or1 (v : Word) : bitlen v = Nat.log2 (or1 v).toNat + 1 := by
  rw [← topBit_eq_log2 (or1_ne_zero v), ← sub_clz32 (or1_ne_zero v), bitlen]
  have hle : clz32 (or1 v) (or1_ne_zero v) ≤ 31 := Nat.sub_le _ _
  omega

theorem bitlen_of_ne_zero {v : Word} (hv : v ≠ 0#32) : bitlen v = Nat.log2 v.toNat + 1 := by
  rw [bitlen_eq_log2_or1, log2_or1 hv]

/-- Settles O10: the zero guard keeps the logarithm of a nonzero value, and of 0 it gives 1. -/
theorem bitlenIsHighestBitPlusOne : Obligations.BitlenIsHighestBitPlusOne :=
  ⟨fun _ => rfl, fun _ => bitlen_of_ne_zero, rfl, bitlen_range⟩

theorem bitlen_le_iff (v : Word) {k : Nat} (hk : 1 ≤ k) : bitlen v ≤ k ↔ v.toNat < 2 ^ k := by
  rw [bitlen_eq_log2_or1, Nat.succ_le_iff, log2_lt_iff (or1_ne_zero v), or1_lt_two_pow_iff v hk]

/-- Settles O11: an entry is the bit-length divided by 7, rounded up. -/
theorem groupTableEntries : Obligations.GroupTableEntries := by
  refine ⟨groupLutTable_length, fun b hb => ?_⟩
  have h32 : b ≤ 32 := hb.2
  rw [grouplut_toNat]
  split_ifs <;> omega

/-! ### BYTECOUNT -/

theorem bytecount_toNat (v : Word) : (bytecount v).toNat = (bitlen v + 6) / 7 :=
  grouplut_toNat _ _

/-- BYTECOUNT is the least number of groups of 7 bits, one at least, that hold the value (R85 (d)). -/
theorem bytecount_le_iff (v : Word) {k : Nat} (hk : 1 ≤ k) : (bytecount v).toNat ≤ k ↔ v.toNat < 2 ^ (7 * k) := by
  rw [bytecount_toNat, ← bitlen_le_iff v (by omega)]
  omega

theorem lt_two_pow_bytecount (v : Word) : v.toNat < 2 ^ (7 * (bytecount v).toNat) :=
  (bytecount_le_iff v (bytecount_range v).1).mp le_rfl

theorem bytecount_eq_log2 (v : Word) :
    (bytecount v).toNat = if v = 0#32 then 1 else 1 + Nat.log2 v.toNat / 7 := by
  split_ifs with hv
  · rw [hv]
    rfl
  · rw [bytecount_toNat, bitlen_of_ne_zero hv]
    omega

/-- Settles O12: form (a) defines BYTECOUNT, (b) is the table's, (c) puts the logarithm for the bit-length, and
(d) is the least number of groups. -/
theorem bytecountClosedForms : Obligations.BytecountClosedForms := fun v =>
  have ⟨h1, h5⟩ := bytecount_range v
  ⟨rfl, bytecount_toNat v, bytecount_eq_log2 v, h1, h5, lt_two_pow_bytecount v,
    fun _ hk => (bytecount_le_iff v hk).mpr⟩

theorem bytecount_mono {u v : Word} (h : u.toNat ≤ v.toNat) : (bytecount u).toNat ≤ (bytecount v).toNat :=
  (bytecount_le_iff u (bytecount_range v).1).mpr (h.trans_lt (lt_two_pow_bytecount v))

/-- Settles O13: each boundary is the least number of groups read at 1, 2, 3 or 4 groups. -/
theorem bytecountBoundaries : Obligations.BytecountBoundaries := by
  refine ⟨fun v => ?_, fun u v => bytecount_mono⟩
  obtain ⟨h1, h5⟩ := bytecount_range v
  have b1 : (bytecount v).toNat ≤ 1 ↔ v.toNat < 128 := bytecount_le_iff v (by decide)
  have b2 : (bytecount v).toNat ≤ 2 ↔ v.toNat < 16384 := bytecount_le_iff v (by decide)
  have b3 : (bytecount v).toNat ≤ 3 ↔ v.toNat < 2097152 := bytecount_le_iff v (by decide)
  have b4 : (bytecount v).toNat ≤ 4 ↔ v.toNat < 268435456 := bytecount_le_iff v (by decide)
  have hv : v.toNat < 4294967296 := v.isLt
  omega

/-- Settles O14: a free instance takes the start, and its whole effect is the port `count`. -/
theorem bytecountCompletes : Obligations.BytecountCompletes := by
  intro s hfree
  obtain ⟨h1, h5⟩ := bytecount_range s.ports.bleIn
  exact ⟨_, startUnit_of_free hfree, rfl, bcResult_setBle_started s _, h1, h5, lt_two_pow_bytecount _, rfl⟩

end Sys2Proof.Machine
end

section
/-! PROOFS. The bytes of a value (41_encoder.md R100 to R104, R108, R109): the range check and the groups are
read as bounds and quotients of the value; O15, O16, O20 and O21. -/

namespace Sys2Proof.Machine

variable {v : Word} {i : Nat} {b : Byte}

/-! ### The range check -/

theorem rangechk_iff {w : Nat} (x : BitVec w) : rangechk x = true ↔ x.toNat < 2 ^ 32 := by
  rw [rangechk, beq_iff_eq, ← BitVec.toNat_inj, BitVec.toNat_ushiftRight, Nat.shiftRight_eq_div_pow]
  simp [Nat.div_eq_zero_iff]

/-- Settles O15: from 34 bits on, a number below `2 ^ 32` has sign bit 0, and a negative one is read as a
natural number of at least `2 ^ 33`. -/
theorem rangeCheckAcceptsExactlyUint32 : Obligations.RangeCheckAcceptsExactlyUint32 := by
  intro w x hw
  have hpow : 2 ^ 34 ≤ 2 ^ w := Nat.pow_le_pow_right (by decide) hw
  have hx := x.isLt
  rw [rangechk_iff, BitVec.toInt_eq_toNat_cond]
  generalize 2 ^ w = m at *
  split_ifs <;> omega

/-- An operand in range is its value part (R71). -/
theorem encValuePart_toNat {x : EncOperand} (h : rangechk x = true) : (encValuePart x).toNat = x.toNat := by
  rw [encValuePart, BitVec.extractLsb'_toNat, Nat.shiftRight_zero, Nat.mod_eq_of_lt ((rangechk_iff x).mp h)]

/-! ### The group shifter -/

theorem grp7_toNat (v : Word) (i : Nat) : (grp7 v i).toNat = v.toNat / 2 ^ (7 * i) % 2 ^ 7 := by
  simp [grp7, Nat.shiftRight_eq_div_pow]

theorem getLsbD_grp7 (v : Word) (i : Nat) {k : Nat} (hk : k < 7) :
    (grp7 v i).getLsbD k = v.getLsbD (7 * i + k) := by
  simp [grp7, hk]

theorem grp7_eq_zero_of_lt (h : v.toNat < 2 ^ (7 * i)) : grp7 v i = 0#7 := by
  apply BitVec.eq_of_toNat_eq
  rw [grp7_toNat, Nat.div_eq_of_lt h]
  rfl

/-- The top group of a value is what is left of it above the groups below. -/
theorem grp7_toNat_of_top (h : v.toNat < 2 ^ (7 * (i + 1))) :
    (grp7 v i).toNat = v.toNat / 2 ^ (7 * i) := by
  rw [grp7_toNat, Nat.mod_eq_of_lt]
  rw [Nat.mul_succ, pow_add] at h
  exact Nat.div_lt_of_lt_mul h

/-- A group at or past the byte count is 0. -/
theorem grp7_eq_zero_of_bytecount_le (h : (bytecount v).toNat ≤ i) : grp7 v i = 0#7 := by
  obtain ⟨h1, -⟩ := bytecount_range v
  exact grp7_eq_zero_of_lt ((bytecount_le_iff v (h1.trans h)).mp h)

/-- Settles O16: a group's bits are the value's, which has none past bit 31 and none past its byte count. -/
theorem groupShifterTakesSevenBits : Obligations.GroupShifterTakesSevenBits := by
  refine ⟨fun v i k _ hk => ?_, fun _ _ => grp7_eq_zero_of_bytecount_le, rfl, rfl, rfl, rfl⟩
  rw [getLsbD_grp7 v i hk]
  split_ifs with h
  · rfl
  · exact BitVec.getLsbD_of_ge v _ (by omega)

/-- The last group of a nonzero value is not 0 (R63). -/
theorem grp7_last_pos (hv : v ≠ 0#32) (hi : i + 1 = (bytecount v).toNat) : 0 < (grp7 v i).toNat := by
  have hge : 2 ^ (7 * i) ≤ v.toNat := by
    cases i with
    | zero => exact Nat.pos_of_ne_zero (BitVec.toNat_ne.mp hv)
    | succ i => exact Nat.not_lt.mp fun h => absurd ((bytecount_le_iff v i.succ_pos).mpr h) (by omega)
  rw [grp7_toNat_of_top (hi ▸ lt_two_pow_bytecount v)]
  exact Nat.div_pos hge (Nat.two_pow_pos _)

/-! ### The byte of a group -/

theorem getLsbD_outmux_seven (p : Payload) (c : Bool) : (outmux p c).getLsbD 7 = c :=
  BitVec.getLsbD_append.trans (by simp)

theorem getLsbD_outmux_of_lt (p : Payload) (c : Bool) {k : Nat} (hk : k < 7) :
    (outmux p c).getLsbD k = p.getLsbD k :=
  BitVec.getLsbD_append.trans (by simp [hk])

theorem extractLsb'_outmux (p : Payload) (c : Bool) : (outmux p c).extractLsb' 0 7 = p := by
  ext k hk
  simpa [hk] using getLsbD_outmux_of_lt p c hk

/-- The byte of a last group is its payload. -/
theorem outmux_false_toNat (p : Payload) : (outmux p false).toNat = p.toNat :=
  (BitVec.toNat_append _ _).trans (by simp)

theorem getLsbD_encByte_seven (v : Word) (n i : Nat) : (encByte v n i).getLsbD 7 = decide (i + 1 ≠ n) := by
  rw [encByte, getLsbD_outmux_seven, lastGroup, decide_not]

/-- The scanner finds the group's payload in its byte. -/
theorem contscan_encByte_payload (v : Word) (n i : Nat) : (contscan (encByte v n i)).2 = grp7 v i :=
  extractLsb'_outmux _ _

/-! ### The bytes of a value -/

theorem getElem?_encodeBytes (hi : i < (bytecount v).toNat) :
    (encodeBytes v)[i]? = some (encByte v (bytecount v).toNat i) := by
  simp [encodeBytes, hi]

theorem getElem?_encodeBytes_eq_some (h : (encodeBytes v)[i]? = some b) :
    i < (bytecount v).toNat ∧ b = encByte v (bytecount v).toNat i := by
  obtain ⟨hi, -⟩ := List.getElem?_eq_some_iff.mp h
  rw [encodeBytes_length] at hi
  exact ⟨hi, Option.some.inj (h.symm.trans (getElem?_encodeBytes hi))⟩

theorem getLast?_encodeBytes_eq_some (h : (encodeBytes v).getLast? = some b) :
    ∃ i, i + 1 = (bytecount v).toNat ∧ b = encByte v (bytecount v).toNat i := by
  obtain ⟨h1, -⟩ := bytecount_range v
  rw [List.getLast?_eq_getElem?, encodeBytes_length] at h
  exact ⟨_, Nat.sub_add_cancel h1, (getElem?_encodeBytes_eq_some h).2⟩

/-- A fifth byte is the value's bits from 28 on, at least one of them set (R63). -/
theorem fifth_byte_range (h : (encodeBytes v)[4]? = some b) : 1 ≤ b.toNat ∧ b.toNat ≤ 15 := by
  obtain ⟨h4, rfl⟩ := getElem?_encodeBytes_eq_some h
  obtain ⟨-, h5⟩ := bytecount_range v
  have hn : 4 + 1 = (bytecount v).toNat := by omega
  have hv : v ≠ 0#32 := by
    rintro rfl
    exact absurd hn (by decide)
  have hbyte : (encByte v (bytecount v).toNat 4).toNat = (grp7 v 4).toNat := by
    rw [encByte, lastGroup, decide_eq_true hn]
    exact outmux_false_toNat _
  have htop : (grp7 v 4).toNat = v.toNat / 2 ^ 28 := grp7_toNat_of_top (hn ▸ lt_two_pow_bytecount v)
  have hpos := grp7_last_pos hv hn
  have hlt := v.isLt
  omega

/-- Settles O20: each byte is its group's, and the byte count leaves the last group of a nonzero value
nonzero. -/
theorem encodedBytesAreCanonical : Obligations.EncodedBytesAreCanonical := by
  refine fun v => ⟨encodeBytes_length v, fun i b h => ?_, fun hv b h => ?_, rfl, fun b => fifth_byte_range⟩
  · obtain ⟨hi, rfl⟩ := getElem?_encodeBytes_eq_some h
    rw [getLsbD_encByte_seven, decide_eq_decide]
    omega
  · obtain ⟨i, hi, rfl⟩ := getLast?_encodeBytes_eq_some h
    rw [encByte, extractLsb'_outmux]
    intro h0
    exact absurd (grp7_last_pos hv hi) (by simp [h0])

/-- Settles O21: byte `i` is the byte of group `i`. -/
theorem encodedBitsComeFromTheValue : Obligations.EncodedBitsComeFromTheValue := by
  refine fun v i hi => ⟨_, getElem?_encodeBytes hi, fun k hk => ?_, getLsbD_encByte_seven v _ i⟩
  rw [encByte, getLsbD_outmux_of_lt _ _ hk, getLsbD_grp7 v i hk]

end Sys2Proof.Machine
end

section
/-! PROOFS. Round trip and least length (41_encoder.md R108; 42_decoder.md R134): the payloads of a value's bytes
sum to the value, and those of `k` bytes to less than `2 ^ (7 * k)`; O22. -/

namespace Sys2Proof.Machine

/-- The payloads of `k` bytes sum to a number of `k` groups. -/
theorem payloadSum_take_lt (l : List Byte) (k : Nat) : payloadSum (l.take k) < 2 ^ (7 * k) := by
  induction k with
  | zero => simp [payloadSum]
  | succ k ih =>
    have hpow : 2 ^ (7 * (k + 1)) = 2 ^ 7 * 2 ^ (7 * k) := by rw [← pow_add]; congr 1; omega
    cases hb : l[k]? with
    | none =>
      rw [List.take_add_one, hb, Option.toList_none, List.append_nil, hpow]
      omega
    | some b =>
      rw [payloadSum_take_succ hb, hpow]
      have hp : (contscan b).2.toNat + 1 ≤ 2 ^ 7 := (contscan b).2.isLt
      calc payloadSum (l.take k) + (contscan b).2.toNat * 2 ^ (7 * k)
          < 2 ^ (7 * k) + (contscan b).2.toNat * 2 ^ (7 * k) := Nat.add_lt_add_right ih _
        _ = ((contscan b).2.toNat + 1) * 2 ^ (7 * k) := by rw [Nat.succ_mul (contscan b).2.toNat, Nat.add_comm]
        _ ≤ 2 ^ 7 * 2 ^ (7 * k) := Nat.mul_le_mul_right _ hp

/-- Settles O22: a value decoded from `c` bytes is their payload sum, so it has at most `c` groups. -/
theorem encodedLengthIsMinimal : Obligations.EncodedLengthIsMinimal := by
  intro v buf off c h
  obtain ⟨t, b, -, hc, hsum⟩ := terminatesAt_of_decodeTx_ok h
  rw [encodeBytes_length, hc, bytecount_le_iff v t.succ_pos, hsum]
  exact payloadSum_take_lt _ _

/-- The payloads of a value's first `k` bytes sum to its lowest `k` groups. -/
theorem payloadSum_take_encodeBytes (v : Word) (rest : List Byte) {k : Nat} (hk : k ≤ (bytecount v).toNat) :
    payloadSum ((encodeBytes v ++ rest).take k) = v.toNat % 2 ^ (7 * k) := by
  induction k with
  | zero => simp [payloadSum, Nat.mod_one]
  | succ k ih =>
    have hb : (encodeBytes v ++ rest)[k]? = some (encByte v (bytecount v).toNat k) := by
      rw [List.getElem?_append_left (by rwa [encodeBytes_length]), getElem?_encodeBytes hk]
    rw [payloadSum_take_succ hb, ih (by omega), contscan_encByte_payload, grp7_toNat, Nat.mul_succ, pow_add,
      Nat.mod_mul, Nat.mul_comm (2 ^ (7 * k))]

/-- A fifth byte has no upper payload bit (R63, R65). -/
theorem fifth_byte_upper_bits {v : Word} {b : Byte} (h : (encodeBytes v)[4]? = some b) :
    b.extractLsb' 4 3 = 0#3 := by
  obtain ⟨-, hle⟩ := fifth_byte_range h
  apply BitVec.eq_of_toNat_eq
  rw [BitVec.extractLsb'_toNat, Nat.shiftRight_eq_div_pow, Nat.div_eq_of_lt (by omega)]
  rfl

/-- Every byte of a value before its last continues. -/
theorem continues_take_encodeBytes {v : Word} {t : Nat} (ht : t < (bytecount v).toNat) :
    Continues ((encodeBytes v).take t) := by
  intro b hb
  obtain ⟨i, hi⟩ := List.mem_iff_getElem?.mp hb
  rw [List.getElem?_take] at hi
  split_ifs at hi with hit
  obtain ⟨-, rfl⟩ := getElem?_encodeBytes_eq_some hi
  rw [getLsbD_encByte_seven, decide_eq_true_eq]
  omega

/-- A value's bytes terminate at the last of them, whatever comes after. -/
theorem terminatesAt_encodeBytes (v : Word) (rest : List Byte) {t : Nat} (ht : t + 1 = (bytecount v).toNat) :
    TerminatesAt (encodeBytes v ++ rest) t (encByte v (bytecount v).toNat t) := by
  obtain ⟨-, h5⟩ := bytecount_range v
  have htn : t < (bytecount v).toNat := by omega
  have hlast := getElem?_encodeBytes htn
  rw [← encodeBytes_length] at htn
  refine ⟨by omega, ?_, ?_, ?_, ?_⟩
  · rw [List.take_append_of_le_length htn.le]
    exact continues_take_encodeBytes (encodeBytes_length v ▸ htn)
  · rw [List.getElem?_append_left htn, hlast]
  · rw [getLsbD_encByte_seven, decide_eq_false_iff_not]
    exact not_not_intro ht
  · rintro rfl
    exact fifth_byte_upper_bits hlast

/-- Every value comes back from its bytes at any place of a buffer (R134). -/
theorem decodeTx_encodeBytes (v : Word) (before after : List Byte) :
    decodeTx (before ++ encodeBytes v ++ after) before.length = .ok v (bytecount v) := by
  obtain ⟨h1, -⟩ := bytecount_range v
  obtain ⟨t, ht⟩ : ∃ t, t + 1 = (bytecount v).toNat := ⟨_, Nat.sub_add_cancel h1⟩
  have hdrop : (before ++ encodeBytes v ++ after).drop before.length = encodeBytes v ++ after := by simp
  obtain ⟨v', hv', hsum⟩ := decodeTx_of_terminatesAt (hdrop ▸ terminatesAt_encodeBytes v after ht)
  rw [hdrop, ht, payloadSum_take_encodeBytes v after le_rfl, Nat.mod_eq_of_lt (lt_two_pow_bytecount v)] at hsum
  rw [hv', BitVec.eq_of_toNat_eq hsum, ht, BitVec.ofNat_toNat, BitVec.setWidth_eq]

end Sys2Proof.Machine
end

section
/-! PROOFS. The ENCODE machine (41_encoder.md R105 to R107, R110): its start step, its group step, and the run of
group steps that ends with the value's bytes in OBUF; O17, O18 and O19. -/

namespace Sys2Proof.Machine

variable {s : State}

/-! ### The start step -/

theorem exec_encode_of_range (hfree : s.anyBusy = false) (hr : rangechk s.ports.encIn = true) :
    exec .encode s = .next (encStart s) := by
  simp [exec, execEncode, startUnit_of_free hfree, hr]

theorem exec_encode_out_of_range (hfree : s.anyBusy = false) (hr : rangechk s.ports.encIn = false) :
    exec .encode s = .next (s.raise .invalidInput) := by
  simp [exec, execEncode, startUnit_of_free hfree, hr]

/-- Settles O17: the Encoder in flight is refused first, then any other unit in flight, and a free block takes
the start step or the InvalidInput entry. -/
theorem encodeStartStep : Obligations.EncodeStartStep := by
  refine fun s => ⟨fun hb => ?_, fun hb ⟨i, hi⟩ => ?_, exec_encode_out_of_range, exec_encode_of_range⟩
  · exact startUnit_of_inFlight ((encBusy_iff s).mpr hb)
  · have hfree : s.inFlight .encoder = false := by simpa [State.inFlight, State.encBusy] using hb
    exact startUnit_of_instance_busy hfree (anyBusy_of_reading hi)

/-! ### The group step -/

theorem step_of_no_moves (hi : s.inputs = []) : step s = autoStep s := by
  simp [step, hi]

theorem autoStep_of_encBusy (hb : s.encBusy = true) : autoStep s = .next (encGroupStep s) := by
  simp [autoStep, hb]

@[simp] theorem encGroupStep_val (s : State) : (encGroupStep s).enc.val = s.enc.val := by
  cases hb : s.encBusy
  · rw [encGroupStep_of_not_busy hb]
  · rw [encGroupStep_of_busy hb, setEnc_enc]

@[simp] theorem encGroupStep_n (s : State) : (encGroupStep s).enc.n = s.enc.n := by
  cases hb : s.encBusy
  · rw [encGroupStep_of_not_busy hb]
  · rw [encGroupStep_of_busy hb, setEnc_enc]

@[simp] theorem encGroupStep_cause (s : State) : (encGroupStep s).enc.cause = s.enc.cause := by
  cases hb : s.encBusy
  · rw [encGroupStep_of_not_busy hb]
  · rw [encGroupStep_of_busy hb, setEnc_enc]

theorem encGroupStep_i (hb : s.encBusy = true) : (encGroupStep s).enc.i = s.enc.i + 1#3 := by
  rw [encGroupStep_of_busy hb, setEnc_enc]

theorem encGroupStep_phase (hb : s.encBusy = true) :
    (encGroupStep s).enc.phase = if s.enc.i + 1#3 = s.enc.n then .done else .busy := by
  rw [encGroupStep_of_busy hb, setEnc_enc]

theorem encGroupStep_obuf (hb : s.encBusy = true) :
    (encGroupStep s).enc.obuf =
      memWrite s.enc.obuf s.enc.i.toNat (encByte s.enc.val s.enc.n.toNat s.enc.i.toNat) := by
  rw [encGroupStep_of_busy hb, setEnc_enc]

/-- Settles O18: a group step writes index `enc_i` of OBUF, the index and the phase, and nothing else. -/
theorem encodeGroupStepWritesOneByte : Obligations.EncodeGroupStepWritesOneByte := by
  intro s hp
  have hb := (encBusy_iff s).mpr hp
  have hbyte : encByte s.enc.val s.enc.n.toNat s.enc.i.toNat =
      outmux (grp7 s.enc.val s.enc.i.toNat) (decide (s.enc.i.toNat + 1 ≠ s.enc.n.toNat)) := by
    rw [encByte, lastGroup, decide_not]
  refine ⟨_, rfl, fun hi => ?_, ?_, fun a ha => ?_, encGroupStep_i hb, encGroupStep_phase hb,
    encGroupStep_val s, encGroupStep_n s, encGroupStep_cause s, encGroupStep_dec s, encGroupStep_ble s,
    encGroupStep_ports s, encGroupStep_inputs s⟩
  · rw [step_of_no_moves hi, autoStep_of_encBusy hb]
  · rw [encGroupStep_obuf hb, memRead_memWrite_same, hbyte]
  · rw [encGroupStep_obuf hb, memRead_memWrite_other _ _ ha]

/-! ### Runs of group steps -/

theorem encSteps_of_not_busy (hb : s.encBusy = false) (k : Nat) : encSteps k s = s := by
  induction k with
  | zero => rfl
  | succ k ih => rw [encSteps, encGroupStep_of_not_busy hb, ih]

theorem encSteps_add (j k : Nat) (s : State) : encSteps (j + k) s = encSteps k (encSteps j s) := by
  induction j generalizing s with
  | zero => rw [Nat.zero_add, encSteps]
  | succ j ih => rw [Nat.succ_add, encSteps, ih, encSteps]

/-- What every ENCODE group step keeps, a run of them keeps. -/
theorem encSteps_keeps {P : State → Prop} (hstep : ∀ u, P u → P (encGroupStep u)) (hs : P s) (k : Nat) :
    P (encSteps k s) := by
  induction k generalizing s with
  | zero => exact hs
  | succ k ih => exact ih (hstep s hs)

/-- An ENCODE in flight is `Done` when its index has come to `enc_n`, and `Busy` before (R107). -/
theorem encSteps_phase {k : Nat} (hb : s.enc.phase = .busy) (hi : s.enc.i.toNat < s.enc.n.toNat)
    (hk : s.enc.i.toNat + k ≤ s.enc.n.toNat) :
    (encSteps k s).enc.phase = if s.enc.i.toNat + k = s.enc.n.toNat then .done else .busy := by
  induction k generalizing s with
  | zero => rw [encSteps, hb, if_neg (by omega)]
  | succ k ih =>
    have hbusy := (encBusy_iff s).mpr hb
    have hphase := encGroupStep_phase hbusy
    have hi' : (encGroupStep s).enc.i.toNat = s.enc.i.toNat + 1 := by
      rw [encGroupStep_i hbusy, encIndex_succ_toNat hi]
    rw [encSteps]
    by_cases hd : s.enc.i + 1#3 = s.enc.n
    · have hn : s.enc.i.toNat + 1 = s.enc.n.toNat := by rw [← hd, encIndex_succ_toNat hi]
      obtain rfl : k = 0 := by omega
      rw [encSteps, hphase, if_pos hd, if_pos hn]
    · rw [if_neg hd] at hphase
      have hne : (s.enc.i + 1#3).toNat ≠ s.enc.n.toNat := mt BitVec.eq_of_toNat_eq hd
      rw [encIndex_succ_toNat hi] at hne
      have hrest := ih hphase (by rw [hi', encGroupStep_n]; omega) (by rw [hi', encGroupStep_n]; omega)
      rw [hrest, hi', encGroupStep_n, Nat.add_assoc, Nat.add_comm 1]

/-! ### The run of an ENCODE -/

/-- What a run from the start step of `s` has kept: OBUF's contents, the value and its count, and everything
outside the Encoder. -/
structure EncodeRun (s u : State) : Prop where
  inv : u.EncInv
  coherent : u.encCoherent
  val : u.enc.val = encValuePart s.ports.encIn
  frame : u = s.setEnc u.enc

theorem encodeRun_encStart (s : State) : EncodeRun s (encStart s) :=
  ⟨encStart_encInv s, fun _ => ⟨rfl, rfl⟩, rfl, rfl⟩

theorem EncodeRun.encGroupStep {u : State} (h : EncodeRun s u) : EncodeRun s (encGroupStep u) where
  inv := encGroupStep_encInv h.inv
  coherent := encGroupStep_encCoherent h.inv h.coherent
  val := (encGroupStep_val u).trans h.val
  frame := calc
    Machine.encGroupStep u = u.setEnc (Machine.encGroupStep u).enc := encGroupStep_eq_setEnc u
    _ = (s.setEnc u.enc).setEnc (Machine.encGroupStep u).enc :=
      congrArg (·.setEnc (Machine.encGroupStep u).enc) h.frame

theorem encodeRun_encSteps (s : State) (k : Nat) : EncodeRun s (encSteps k (encStart s)) :=
  encSteps_keeps (P := EncodeRun s) (fun _ => EncodeRun.encGroupStep) (encodeRun_encStart s) k

/-- A run that is `Done` shows the value's bytes and their count. -/
theorem EncodeRun.result {u : State} (h : EncodeRun s u) (hd : u.enc.phase = .done) :
    encResult u = some (.ok (encodeBytes (encValuePart s.ports.encIn))) ∧
      outLen u = some (bytecount (encValuePart s.ports.encIn)) := by
  obtain ⟨hn, hobuf⟩ := obuf_of_done h.inv h.coherent hd
  rw [h.val] at hn hobuf
  refine ⟨?_, by rw [outLen, if_pos hd, hn]⟩
  rw [encResult_of_done hd, hobuf, hn, ← encodeBytes_length, memBytes_memOfBytes]

/-- From the start step the Encoder is `Busy` for `enc_n` group steps, and then `Done`. -/
theorem encSteps_encStart_phase (s : State) {k : Nat}
    (hk : k ≤ (bytecount (encValuePart s.ports.encIn)).toNat) :
    (encSteps k (encStart s)).enc.phase =
      if k = (bytecount (encValuePart s.ports.encIn)).toNat then .done else .busy := by
  obtain ⟨h1, -⟩ := bytecount_range (encValuePart s.ports.encIn)
  simpa using encSteps_phase (s := encStart s) (k := k) rfl h1 (by simpa using hk)

theorem encodeTx_of_range {x : EncOperand} (hr : rangechk x = true) :
    encodeTx x = .ok (encodeBytes (encValuePart x)) :=
  if_pos hr

theorem encodeTx_out_of_range {x : EncOperand} (hr : rangechk x = false) : encodeTx x = .err .invalidInput :=
  if_neg (Bool.eq_false_iff.mp hr)

/-- Settles O19: every group step keeps what the start step set up, and after `enc_n` of them the phase is
`Done`, so OBUF holds all the bytes. -/
theorem encodeRunGivesTransactionResult : Obligations.EncodeRunGivesTransactionResult := by
  refine fun s hfree => ⟨fun hr => ?_, fun hr => ⟨_, exec_encode_of_range hfree hr, fun k hk => ?_, _, rfl, ?_⟩⟩
  · refine ⟨_, exec_encode_out_of_range hfree hr, rfl, ?_, rfl, rfl⟩
    rw [encodeTx_out_of_range hr]
    rfl
  · rw [encSteps_encStart_phase s hk.le, if_neg hk.ne]
  · have hrun := encodeRun_encSteps s (bytecount (encValuePart s.ports.encIn)).toNat
    have hd := (encSteps_encStart_phase s le_rfl).trans (if_pos rfl)
    obtain ⟨hres, hlen⟩ := hrun.result hd
    refine ⟨hd, hres.trans (by rw [encodeTx_of_range hr]), hres, hlen, by simp [encStatus, hd], ?_⟩
    rw [hrun.frame]
    exact ⟨rfl, rfl, rfl, rfl⟩

/-- Once `Done`, group steps change nothing, so five of them end every ENCODE. -/
theorem encResult_encSteps_five (s : State) :
    encResult (encSteps 5 (encStart s)) = some (.ok (encodeBytes (encValuePart s.ports.encIn))) := by
  obtain ⟨-, h5⟩ := bytecount_range (encValuePart s.ports.encIn)
  have hd := (encSteps_encStart_phase s le_rfl).trans (if_pos rfl)
  have hrest : (encSteps (bytecount (encValuePart s.ports.encIn)).toNat (encStart s)).encBusy = false := by
    simp [State.encBusy, hd]
  rw [← Nat.add_sub_cancel' h5, encSteps_add, encSteps_of_not_busy hrest]
  exact ((encodeRun_encSteps s _).result hd).1

end Sys2Proof.Machine
end

section
/-! PROOFS. The round trip through both machines (41_encoder.md R108; 42_decoder.md R134): the run of a DECODE
shows the loop's result; O40. -/

namespace Sys2Proof.Machine

variable {s t : State} {buf : List Byte} {off : Nat}

/-! ### The run of a DECODE -/

theorem exec_decode_of_free (hfree : s.anyBusy = false) : exec .decode s = .next (decStart s) :=
  startUnit_of_free hfree

theorem decSteps_of_not_reading (h : s.decReading = false) (n : Nat) : decSteps n s = .next s := by
  induction n with
  | zero => rfl
  | succ n ih => simp [decSteps, decGroupStep_of_not_reading h, ih]

theorem decSteps_succ (h : decGroupStep s = .next t) (n : Nat) : decSteps (n + 1) s = decSteps n t := by
  simp [decSteps, h]

/-- With group `i` to come and the group steps of the groups left, a DECODE ends with the loop's result. -/
theorem State.DecodesAt.decSteps_result {i : Fin 5} (h : s.DecodesAt buf off i) {k : Nat} (hk : i.val + k = 5) :
    ∃ u, decSteps k s = .next u ∧ decResult u = some (decodeLoop buf off k i s.dec.acc) := by
  induction k generalizing s i with
  | zero => omega
  | succ k ih =>
    rcases Nat.lt_or_ge (off + i.val) buf.length with hlt | hge
    · have hb := List.getElem?_eq_getElem hlt
      obtain ⟨-, hstep⟩ := h.decGroupStep_within hb
      rw [decSteps_succ hstep]
      rcases h.decTakeByte_cases hb k with ⟨hres, -⟩ | ⟨j, hj, hnext, hloop⟩
      · exact ⟨_, decSteps_of_not_reading (decReading_of_decResult hres) k, hres⟩
      · rw [hloop]
        exact ih hnext (by omega)
    · obtain ⟨-, hstep⟩ := h.decGroupStep_past hge
      rw [decSteps_succ hstep, decodeLoop_past hge]
      exact ⟨_, decSteps_of_not_reading rfl k, rfl⟩

/-- Five group steps from the start step show the result of the transaction-level DECODE (R135). -/
theorem decSteps_five_result (hp : presentsDecode s buf off) :
    ∃ u, decSteps 5 (decStart s) = .next u ∧ decResult u = some (decodeTx buf off) :=
  (decStart_decodesAt hp).decSteps_result rfl

/-- A result that is a value stands on the ports of a Decoder that is `Done` (R130). -/
theorem ports_of_decResult_ok {v : Word} {c : Count} (h : decResult s = some (.ok v c)) :
    s.dec.phase = .done ∧ valuePort s = some v ∧ consumedPort s = some c := by
  cases hp : s.dec.phase with
  | done =>
    obtain ⟨hv, hc⟩ : s.dec.acc = v ∧ s.dec.group + 1#3 = c := by simpa [decResult, hp] using h
    simp [valuePort, consumedPort, hp, hv, hc]
  | failed =>
    simp only [decResult, hp] at h
    split_ifs at h <;> cases h
  | idle | reading => simp [decResult, hp] at h

/-- Settles O40: the Encoder's run leaves the value's bytes, the Decoder's run shows what DECODE makes of them,
and that is the value. -/
theorem encodedValueComesBackThroughTheDecoder : Obligations.EncodedValueComesBackThroughTheDecoder := by
  intro s t hr h
  obtain ⟨-, ⟨-, rfl⟩ | ⟨hr', -⟩⟩ := execEncode_next h
  · refine ⟨_, encResult_encSteps_five s, fun s' before after hfree hp => ?_⟩
    obtain ⟨u, hu, hres⟩ := decSteps_five_result hp
    rw [decodeTx_encodeBytes] at hres
    obtain ⟨hd, hval, hcons⟩ := ports_of_decResult_ok hres
    refine ⟨_, u, exec_decode_of_free hfree, hu, hd, hval, by rw [hcons, encodeBytes_length]; rfl, ?_⟩
    have hlt := (rangechk_iff _).mp hr
    rw [encValuePart_toNat hr, BitVec.toInt_eq_toNat_of_lt (by omega)]
  · rw [hr] at hr'
    cases hr'

end Sys2Proof.Machine
end

section
/-! PROOFS. The terminal phases hold (41_encoder.md R107; 42_decoder.md R130): what writes the registers of a unit
that is not in flight; O54. -/

namespace Sys2Proof.Machine

variable {s t : State}

theorem decodeOp_ne_of_ne {op : Code} {i : Instr} (h : op ≠ encodeOp i) : decodeOp op ≠ i :=
  fun he => h (he ▸ (encodeOp_decodeOp op).symm)

/-- Of the commands only ENCODE writes the Encoder. -/
theorem exec_enc_of_ne_encode {i : Instr} (hi : i ≠ .encode) (h : exec i s = .next t) : t.enc = s.enc := by
  obtain ⟨-, ⟨-, rfl⟩ | ⟨he, -⟩ | ⟨he, -⟩ | ⟨-, rfl⟩⟩ := exec_next h
  · rfl
  · exact absurd he hi
  · exact absurd he hi
  · rfl

/-- Of the commands only DECODE writes the Decoder. -/
theorem exec_dec_of_ne_decode {i : Instr} (hi : i ≠ .decode) (h : exec i s = .next t) : t.dec = s.dec := by
  obtain ⟨-, ⟨-, rfl⟩ | ⟨-, -, rfl⟩ | ⟨-, -, rfl⟩ | ⟨he, -⟩⟩ := exec_next h
  · rfl
  · rfl
  · rfl
  · exact absurd he hi

/-- An Encoder not in flight is written by an ENCODE start or a reset only. -/
theorem step_enc_of_not_busy (h : step s = .next t) (hb : s.encBusy = false)
    (hreset : ∀ rest, s.inputs ≠ .reset :: rest)
    (hstart : ∀ rest, s.inputs ≠ .start (encodeOp .encode) :: rest) : t.enc = s.enc := by
  obtain ⟨l, hb', -⟩ | ⟨l, hd, -, -, -⟩ | ⟨l, rfl, -, -, -⟩ | ⟨v, rest, -, rfl⟩ | ⟨x, rest, -, rfl⟩ |
    ⟨off, len, buf, rest, -, -, rfl⟩ | ⟨op, rest, hi, hx⟩ | ⟨rest, hi, -⟩ := step_cases h
  · exact absurd (hb.symm.trans hb') Bool.false_ne_true
  · obtain ⟨d, -, -, rfl⟩ := decGroupStep_setDec hd
    rfl
  · rfl
  · rfl
  · rfl
  · rfl
  · exact exec_enc_of_ne_encode (s := s.setInputs rest) (decodeOp_ne_of_ne fun he => hstart rest (he ▸ hi))
      hx
  · exact absurd hi (hreset rest)

/-- A Decoder not in flight is written by a DECODE start or a reset only. -/
theorem step_dec_of_not_reading (h : step s = .next t) (hr : s.decReading = false)
    (hreset : ∀ rest, s.inputs ≠ .reset :: rest)
    (hstart : ∀ rest, s.inputs ≠ .start (encodeOp .decode) :: rest) : t.dec = s.dec := by
  obtain ⟨l, -, rfl, -, -, -⟩ | ⟨l, hd, -, -, -⟩ | ⟨l, rfl, -, -, -⟩ | ⟨v, rest, -, rfl⟩ |
    ⟨x, rest, -, rfl⟩ | ⟨off, len, buf, rest, -, -, rfl⟩ | ⟨op, rest, hi, hx⟩ | ⟨rest, hi, -⟩ :=
    step_cases h
  · exact encGroupStep_dec _
  · rw [decGroupStep_of_not_reading (s := s.setInputs l) hr] at hd
    cases hd
    rfl
  · rfl
  · rfl
  · rfl
  · rfl
  · exact exec_dec_of_ne_decode (s := s.setInputs rest) (decodeOp_ne_of_ne fun he => hstart rest (he ▸ hi))
      hx
  · exact absurd hi (hreset rest)

/-- Settles O54: a unit in a terminal phase is not in flight, and then only its own start and a reset write its
registers. -/
theorem terminalPhasesHoldUntilTheNextStart : Obligations.TerminalPhasesHoldUntilTheNextStart := by
  intro s t h hreset
  refine ⟨fun hp hstart => step_enc_of_not_busy h ?_ hreset hstart,
    fun hp hstart => step_dec_of_not_reading h ?_ hreset hstart⟩
  · rcases hp with hp | hp <;> simp [State.encBusy, hp]
  · rcases hp with hp | hp <;> simp [State.decReading, hp]

end Sys2Proof.Machine
end

section
/-! PROOFS. The Decoder's combinational pieces (42_decoder.md R121 to R124): the scanner, the shifter, the
accumulator's OR and the overflow detector, bit by bit and as arithmetic; O24, O26, O27 and O28. -/

namespace Sys2Proof.Machine

/-! ### The scanner -/

/-- The mux joins what the scanner splits (R103, R121). -/
theorem outmux_contscan (b : Byte) : outmux (contscan b).2 (contscan b).1 = b := by
  apply BitVec.eq_of_getLsbD_eq
  intro k hk
  rcases Nat.lt_or_eq_of_le (Nat.le_of_lt_succ hk) with hlt | rfl
  · rw [getLsbD_outmux_of_lt _ _ hlt]
    simp [contscan, hlt]
  · exact getLsbD_outmux_seven _ _

/-- Settles O24: bit 7 and bits 6 to 0 are apart in the byte, and there is no other bit. -/
theorem scannerSplitsWhatTheMuxJoins : Obligations.ScannerSplitsWhatTheMuxJoins :=
  ⟨fun p c => Prod.ext (getLsbD_outmux_seven p c) (extractLsb'_outmux p c), outmux_contscan⟩

/-! ### The shifter -/

theorem getLsbD_dshift (p : Payload) {g : Nat} (hg : g ≤ 4) (k : Nat) :
    (dshift p g).getLsbD k = (decide (7 * g ≤ k) && decide (k < 7 * g + 7) && p.getLsbD (k - 7 * g)) := by
  rw [dshift, BitVec.getLsbD_shiftLeft, BitVec.getLsbD_setWidth]
  rcases Nat.lt_or_ge k (7 * g + 7) with hk | hk
  · have h35 : k < 35 := by omega
    have hsub : k - 7 * g < 35 := by omega
    have hnot : (!decide (k < 7 * g)) = decide (7 * g ≤ k) := 
      decide_not.symm.trans (decide_eq_decide.mpr Nat.not_lt)
    simp [h35, hsub, hk, hnot]
  · have hp : p.getLsbD (k - 7 * g) = false := BitVec.getLsbD_of_ge _ _ (by omega)
    simp [hp]

/-- Settles O26: the bits of a shift left, and a product that stays below `2 ^ 35`. -/
theorem barrelShifterPlacesThePayload : Obligations.BarrelShifterPlacesThePayload :=
  ⟨fun p _ k hg => getLsbD_dshift p hg k, fun p _ hg => dshift_toNat p hg, rfl, rfl, rfl⟩

/-! ### The accumulator -/

/-- What the accumulator takes of the shifted payload is a multiple of its group's weight. -/
theorem extractLsb'_dshift_toNat (p : Payload) {g : Nat} (hg : g ≤ 4) :
    ((dshift p g).extractLsb' 0 32).toNat = 2 ^ (7 * g) * (p.toNat % 2 ^ (32 - 7 * g)) := by
  have hpow : 2 ^ 32 = 2 ^ (7 * g) * 2 ^ (32 - 7 * g) := by rw [← pow_add]; congr 1; omega
  rw [BitVec.extractLsb'_toNat, Nat.shiftRight_zero, dshift_toNat p hg, hpow, Nat.mul_comm p.toNat,
    Nat.mul_mod_mul_left]

/-- Below the bits of group `g` the OR adds what it takes (R123). -/
theorem accUpdate_dshift_toNat {a : Word} (p : Payload) {g : Nat} (hg : g ≤ 4) (ha : a.toNat < 2 ^ (7 * g)) :
    (accUpdate a (dshift p g)).toNat = a.toNat + ((dshift p g).extractLsb' 0 32).toNat := by
  rw [accUpdate, BitVec.toNat_or, extractLsb'_dshift_toNat p hg, Nat.or_comm, ← Nat.two_pow_add_eq_or_of_lt ha,
    Nat.add_comm]

/-- Settles O27: the OR adds the bits it takes, and a payload the detector lets pass is taken whole. -/
theorem accumulatorOrIsAddition : Obligations.AccumulatorOrIsAddition :=
  fun _ p _ hg ha => ⟨accUpdate_dshift_toNat p hg ha, accUpdate_toNat_of_not_ovfdet hg ha⟩

/-! ### The overflow detector -/

theorem ovfdet_iff (p : Payload) (g : Nat) : ovfdet p g = true ↔ g = 4 ∧ p.extractLsb' 4 3 ≠ 0#3 := by
  simp [ovfdet]

/-- At group 4 payload bits 6 to 4 come to stand above bit 31. -/
theorem extractLsb'_dshift_four (p : Payload) : (dshift p 4).extractLsb' 32 3 = p.extractLsb' 4 3 := by
  apply BitVec.eq_of_getLsbD_eq
  intro k hk
  have hlo : 28 ≤ 32 + k := by omega
  have hhi : 32 + k < 35 := by omega
  have hsub : 32 + k - 28 = 4 + k := by omega
  rw [BitVec.getLsbD_extractLsb', BitVec.getLsbD_extractLsb', getLsbD_dshift p le_rfl, hsub]
  simp [hlo, hhi]

/-- Before group 4 no bit of the shifted payload stands above bit 31. -/
theorem extractLsb'_dshift_of_lt (p : Payload) {g : Nat} (hg : g < 4) :
    (dshift p g).extractLsb' 32 3 = 0#3 := by
  have hlt := dshift_lt_of_not_ovfdet hg.le (not_ovfdet_of_lt (p := p) hg)
  apply BitVec.eq_of_toNat_eq
  rw [BitVec.extractLsb'_toNat, Nat.shiftRight_eq_div_pow, Nat.div_eq_of_lt hlt]
  rfl

/-- Settles O28: the detector reads at group 4 the payload bits that the shifter puts above bit 31, and before
it there are none. -/
theorem overflowDetectorSeesBitsAbove31 : Obligations.OverflowDetectorSeesBitsAbove31 := by
  refine fun p g hg => ⟨ovfdet_iff p g, ?_⟩
  rcases Nat.lt_or_eq_of_le hg with hlt | rfl
  · simp [not_ovfdet_of_lt hlt, extractLsb'_dshift_of_lt p hlt]
  · simp [ovfdet_iff, extractLsb'_dshift_four]

end Sys2Proof.Machine
end

section
/-! PROOFS. The transaction-level DECODE on encoded bytes, on longer input and on equal bytes (42_decoder.md R131,
R133, R134): what the bytes at the offset terminate with gives the result; O37, O38 and O39. -/

namespace Sys2Proof.Machine

/-- Settles O39: a value's bytes terminate at their last, with the value as payload sum. -/
theorem roundTripAtAnyOffset : Obligations.RoundTripAtAnyOffset :=
  fun v before after => ⟨bytecount v, (encodeBytes_length v).symm, decodeTx_encodeBytes v before after⟩

/-! ### Bytes past the terminating one -/

/-- Whether bytes terminate at byte `t` is told by the first `t + 1` of them. -/
theorem TerminatesAt.congr {l l' : List Byte} {t : Nat} {b : Byte} (h : TerminatesAt l t b)
    (heq : l'.take (t + 1) = l.take (t + 1)) : TerminatesAt l' t b := by
  obtain ⟨ht, hc, hb, hstop, hup⟩ := h
  have htake : l'.take t = l.take t := by simpa [List.take_take] using congrArg (List.take t) heq
  have hget : l'[t]? = l[t]? := by simpa [List.getElem?_take] using congrArg (·[t]?) heq
  exact ⟨ht, htake ▸ hc, hget ▸ hb, hstop, hup⟩

theorem take_drop_congr {buf buf' : List Byte} {off n : Nat} (h : ∀ j, j < n → buf'[off + j]? = buf[off + j]?) :
    (buf'.drop off).take n = (buf.drop off).take n := by
  apply List.ext_getElem?
  intro j
  rw [List.getElem?_take, List.getElem?_take, List.getElem?_drop, List.getElem?_drop]
  split_ifs with hj
  · exact h j hj
  · rfl

/-- Settles O37: the bytes consumed terminate in either buffer, with one payload sum. -/
theorem decodeIgnoresBytesPastTheTerminator : Obligations.DecodeIgnoresBytesPastTheTerminator := by
  intro buf buf' off v c h heq
  obtain ⟨t, b, hterm, hc, hsum⟩ := terminatesAt_of_decodeTx_ok h
  have htake := take_drop_congr (hc ▸ heq)
  obtain ⟨v', hv', hsum'⟩ := decodeTx_of_terminatesAt (hterm.congr htake)
  have hvv : v' = v := BitVec.eq_of_toNat_eq (by rw [hsum', htake, hsum])
  rw [hv', hvv, ← hc, BitVec.ofNat_toNat, BitVec.setWidth_eq]

/-! ### A zero byte too many -/

/-- The continuation bit is no part of the payload. -/
theorem payload_or_0x80 (b : Byte) : (b ||| 0x80#8).extractLsb' 0 7 = b.extractLsb' 0 7 := by
  revert b
  decide

theorem payloadSum_map_or_0x80 (l : List Byte) : payloadSum (l.map (· ||| 0x80#8)) = payloadSum l := by
  have hterms : (l.map (· ||| 0x80#8)).mapIdx (fun j b => (b.extractLsb' 0 7).toNat * 2 ^ (7 * j)) =
      l.mapIdx fun j b => (b.extractLsb' 0 7).toNat * 2 ^ (7 * j) := by
    apply List.ext_getElem?
    intro j
    simp only [List.getElem?_mapIdx, List.getElem?_map, Option.map_map, Function.comp_def, payload_or_0x80]
  exact congrArg List.sum hterms

theorem continues_map_or_0x80 (l : List Byte) : Continues (l.map (· ||| 0x80#8)) := by
  intro b hb
  obtain ⟨a, -, rfl⟩ := List.mem_map.mp hb
  simp

/-- A zero byte after bytes that continue terminates them and adds nothing (R133). -/
theorem decodeTx_of_continues_append_zero {l : List Byte} (hlen : l.length ≤ 4) (hc : Continues l) :
    ∃ v : Word, decodeTx (l ++ [0x00#8]) 0 = .ok v (BitVec.ofNat 3 (l.length + 1)) ∧ v.toNat = payloadSum l := by
  have hget : (l ++ [0x00#8])[l.length]? = some 0x00#8 := List.getElem?_concat_length
  have htake : (l ++ [0x00#8]).take l.length = l := List.take_left
  have hzero : (contscan 0x00#8).2 = 0#7 := rfl
  obtain ⟨v, hv, hsum⟩ := decodeTx_of_terminatesAt (buf := l ++ [0x00#8]) (off := 0)
    ⟨hlen, htake.symm ▸ hc, hget, rfl, fun _ => rfl⟩
  rw [List.drop_zero, payloadSum_take_succ hget, htake, hzero, BitVec.toNat_zero, Nat.zero_mul,
    Nat.add_zero] at hsum
  exact ⟨v, hv, hsum⟩

theorem payloadSum_encodeBytes (v : Word) : payloadSum (encodeBytes v) = v.toNat := by
  have h := payloadSum_take_encodeBytes v [] le_rfl
  rwa [List.append_nil, ← encodeBytes_length, List.take_length, encodeBytes_length,
    Nat.mod_eq_of_lt (lt_two_pow_bytecount v)] at h

/-- Settles O38: the value's bytes, each made to continue, keep their payload sum, and the zero byte
terminates them. -/
theorem overlongInputIsAccepted : Obligations.OverlongInputIsAccepted := by
  intro v hlt
  have hlen : ((encodeBytes v).map (· ||| 0x80#8)).length = (bytecount v).toNat := by
    rw [List.length_map, encodeBytes_length]
  obtain ⟨v', hv', hsum⟩ := decodeTx_of_continues_append_zero (hlen ▸ Nat.le_of_lt_succ hlt)
    (continues_map_or_0x80 _)
  rw [payloadSum_map_or_0x80, payloadSum_encodeBytes] at hsum
  rw [hv', BitVec.eq_of_toNat_eq hsum, hlen, BitVec.ofNat_add, BitVec.ofNat_toNat, BitVec.setWidth_eq]

end Sys2Proof.Machine
end

section
/-! PROOFS. The DECODE machine (42_decoder.md R128, R129, R135): its start step, the outcomes of a group step, and
the run that is over with the first state not `Reading(i)`; O29, O30 and O33. -/

namespace Sys2Proof.Machine

variable {s u : State} {n : Nat}

/-! ### The start step -/

/-- Settles O29: the Decoder in flight is refused first, then any other unit in flight, and a free block takes
the start step. -/
theorem decodeStartStep : Obligations.DecodeStartStep := by
  refine fun s => ⟨fun hr => ?_, fun hr hb => ?_, exec_decode_of_free⟩
  · exact startUnit_of_inFlight ((decReading_iff s).mpr hr)
  · have hbusy : s.anyBusy = true := anyBusy_of_inFlight (u := .encoder) ((encBusy_iff s).mpr hb)
    exact startUnit_of_instance_busy ((decReading_eq_false_iff s).mpr hr) hbusy

/-! ### The group step -/

/-- The overflow detector on an input byte (R124, R129). -/
theorem ovfdet_contscan_iff (b : Byte) (i : Fin 5) :
    ovfdet (contscan b).2 i = true ↔ i.val = 4 ∧ b.extractLsb' 4 3 ≠ 0#3 := by
  simp [ovfdet_contscan]

/-- Settles O30: past the buffer the step fails, and inside it the byte is taken with the outcome that the
detector, the continuation bit and the group tell. -/
theorem decodeGroupStepOutcomes : Obligations.DecodeGroupStepOutcomes := by
  refine fun s i hp => ⟨decGroupStep_past hp, fun b hlt hm => ?_⟩
  have hov := ovfdet_contscan_iff b i
  have hsilent (ho : ovfdet (contscan b).2 i = false) : ¬(i.val = 4 ∧ b.extractLsb' 4 3 ≠ 0#3) := fun h =>
    Bool.eq_false_iff.mp ho (hov.mpr h)
  rcases decTakeByte_cases s i b with ⟨ho, ht⟩ | ⟨ho, hc, ht⟩ | ⟨ho, hc, h4, ht⟩ | ⟨ho, hc, h4, ht⟩ <;>
    rw [decGroupStep_within hp hlt hm, ht]
  · obtain ⟨h4, hup⟩ := hov.mp ho
    exact ⟨fun _ => rfl, fun h => absurd ⟨h4, hup⟩ h, fun h => absurd h.2 hup, fun h => absurd h4 h.ne⟩
  · exact ⟨fun h => absurd h (hsilent ho), fun _ _ => rfl, fun _ hb => absurd (hc.symm.trans hb) Bool.false_ne_true,
      fun _ hb => absurd (hc.symm.trans hb) Bool.false_ne_true⟩
  · exact ⟨fun h => absurd h (hsilent ho), fun _ hb => absurd (hb.symm.trans hc) Bool.false_ne_true, fun _ _ => rfl,
      fun h => absurd h4 h.ne⟩
  · exact ⟨fun h => absurd h (hsilent ho), fun _ hb => absurd (hb.symm.trans hc) Bool.false_ne_true,
      fun h => absurd h.1 h4.ne, fun _ _ => ⟨i + 1, Fin.val_add_one_of_lt (Fin.lt_def.mpr h4), rfl⟩⟩

/-! ### The run of a DECODE -/

theorem decSteps_succ_next (h : decSteps (n + 1) s = .next u) :
    ∃ t, decGroupStep s = .next t ∧ decSteps n t = .next u := by
  cases hs : decGroupStep s with
  | next t => exact ⟨t, rfl, by rwa [decSteps_succ hs] at h⟩
  | fault | refused => simp [decSteps, hs] at h

/-- Group steps change the Decoder only. -/
theorem decSteps_setDec (h : decSteps n s = .next u) : ∃ d, u = s.setDec d := by
  induction n generalizing s with
  | zero =>
    cases h
    exact ⟨_, (setDec_self _).symm⟩
  | succ n ih =>
    obtain ⟨t, hs, ht⟩ := decSteps_succ_next h
    obtain ⟨d, -, -, rfl⟩ := decGroupStep_setDec hs
    obtain ⟨e, rfl⟩ := ih ht
    exact ⟨e, setDec_setDec s d e⟩

/-- A run reaches its last state while every state before is `Reading(i)`: the group steps after that change
nothing (R130). -/
theorem decSteps_reading_before (h : decSteps n s = .next u) :
    ∃ k ≤ n, decSteps k s = .next u ∧
      ∀ j < k, ∃ (u' : State) (i : Fin 5), decSteps j s = .next u' ∧ u'.dec.phase = .reading i := by
  induction n generalizing s with
  | zero => exact ⟨0, le_rfl, h, fun j hj => absurd hj (Nat.not_lt_zero j)⟩
  | succ n ih =>
    cases hr : s.decReading with
    | false =>
      rw [decSteps_of_not_reading hr] at h
      exact ⟨0, Nat.zero_le _, h, fun j hj => absurd hj (Nat.not_lt_zero j)⟩
    | true =>
      obtain ⟨i, hi⟩ := (decReading_iff s).mp hr
      obtain ⟨t, hs, ht⟩ := decSteps_succ_next h
      obtain ⟨k, hk, hend, hread⟩ := ih ht
      refine ⟨k + 1, Nat.succ_le_succ hk, by rwa [decSteps_succ hs], fun j hj => ?_⟩
      cases j with
      | zero => exact ⟨s, i, rfl, hi⟩
      | succ j =>
        rw [decSteps_succ hs]
        exact hread j (Nat.lt_of_succ_lt_succ hj)

/-- A result stands on the ports in a terminal phase only (R130). -/
theorem terminal_of_decResult {r : ResultDEC} (h : decResult s = some r) :
    s.dec.phase = .done ∨ s.dec.phase = .failed := by
  cases hp : s.dec.phase with
  | done => exact .inl rfl
  | failed => exact .inr rfl
  | idle | reading => simp [decResult, hp] at h

/-- Settles O33: five group steps show the result of the loop, and the run is over with the first state that is
not `Reading(i)`, which the start step does not leave. -/
theorem decodeRunGivesTransactionResult : Obligations.DecodeRunGivesTransactionResult := by
  intro s buf off hfree hp
  obtain ⟨u, hu, hres⟩ := decSteps_five_result hp
  have hend := decReading_of_decResult hres
  obtain ⟨k, hk, hrun, hread⟩ := decSteps_reading_before hu
  have hk0 : k ≠ 0 := by
    rintro rfl
    cases hrun
    cases hend
  obtain ⟨d, rfl⟩ := decSteps_setDec hrun
  exact ⟨_, exec_decode_of_free hfree, k, _, Nat.pos_of_ne_zero hk0, hk, hrun, hread, terminal_of_decResult hres,
    hres, rfl, rfl, rfl, rfl⟩

end Sys2Proof.Machine
end

section
/-! PROOFS. Errors, refusals and instances (60_exceptions.md): what a step without a `start` is, which commands
are refused, what an error shows, where the errors come from, and that instances share nothing; O4, O7, O32, O41,
O42 and O57. -/

namespace Sys2Proof.Machine

variable {s t : State}

/-! ### Steps without a start -/

theorem encBusy_eq_false_iff (s : State) : s.encBusy = false ↔ s.enc.phase ≠ .busy := by
  rw [← Bool.not_eq_true, encBusy_iff]

theorem autoStep_of_not_encBusy (hb : s.encBusy = false) : autoStep s = decGroupStep s := by
  simp [autoStep, hb]

theorem awaitStep_of_anyBusy (h : s.anyBusy = true) (rest : List HostMove) : awaitStep s rest = autoStep s :=
  if_pos h

theorem awaitStep_of_free (h : s.anyBusy = false) (rest : List HostMove) :
    awaitStep s rest = .next (s.setInputs rest) := by
  simp [awaitStep, h]

theorem step_of_grantEnc {rest : List HostMove} (hi : s.inputs = .grantEnc :: rest) :
    step s = .next (encGroupStep (s.setInputs rest)) := by
  simp [step, hi]

theorem step_of_grantDec {rest : List HostMove} (hi : s.inputs = .grantDec :: rest) :
    step s = decGroupStep (s.setInputs rest) := by
  simp [step, hi]

theorem step_of_await {rest : List HostMove} (hi : s.inputs = .await :: rest) : step s = awaitStep s rest := by
  simp [step, hi]

/-- Settles O4: with no move to come the block is left alone, a grant is a group step, and a wait leaves the block
alone while a unit is in flight. -/
theorem stepWithoutStartIsAGroupStepOrAWait : Obligations.StepWithoutStartIsAGroupStepOrAWait := by
  intro s
  rw [← encBusy_eq_false_iff, ← encBusy_iff, ← decReading_iff, ← decReading_eq_false_iff]
  refine ⟨fun hi hb => ?_, fun hi hb => ?_, fun hi hb hr => ?_, fun rest => step_of_grantEnc,
    fun rest => step_of_grantDec, fun rest hi hb => ?_, fun rest hi hb hr => ?_, fun rest hi hb hr => ?_⟩
  · rw [step_of_no_moves hi, autoStep_of_encBusy hb]
  · rw [step_of_no_moves hi, autoStep_of_not_encBusy hb]
  · rw [step_of_no_moves hi, autoStep_of_not_encBusy hb, decGroupStep_of_not_reading hr]
  · rw [step_of_await hi, awaitStep_of_anyBusy (anyBusy_of_inFlight (u := .encoder) hb), autoStep_of_encBusy hb]
  · rw [step_of_await hi, awaitStep_of_anyBusy (anyBusy_of_inFlight (u := .decoder) hr),
      autoStep_of_not_encBusy hb]
  · rw [step_of_await hi, awaitStep_of_free ((anyBusy_eq_false_iff s).mpr ⟨hb, hr⟩)]

/-! ### Refusals -/

/-- A `start` is refused for its own unit first, and then for another unit of the instance (R51, R165). -/
theorem startUnit_refused_iff {u : UnitName} {r : Refusal} :
    startUnit s u t = .refused r ↔
      (s.inFlight u = true ∧ r = .startWhileBusy u) ∨
      (s.inFlight u = false ∧ s.anyBusy = true ∧ r = .startWhileInstanceBusy u) := by
  cases hu : s.inFlight u with
  | true => simpa [startUnit_of_inFlight hu] using eq_comm
  | false =>
    cases h : s.anyBusy with
    | true => simpa [startUnit_of_instance_busy hu h] using eq_comm
    | false => simp [startUnit_of_free h]

theorem anyBusy_iff (s : State) : s.anyBusy = true ↔ s.enc.phase = .busy ∨ ∃ k, s.dec.phase = .reading k := by
  simp only [State.anyBusy, Bool.or_eq_true, encBusy_iff, decReading_iff]

theorem exec_bytecount_refused_iff {r : Refusal} :
    exec .bytecount s = .refused r ↔
      (s.enc.phase = .busy ∨ ∃ k, s.dec.phase = .reading k) ∧ r = .startWhileInstanceBusy .bitLength := by
  simp [exec, execBytecount, startUnit_refused_iff, State.inFlight, anyBusy_iff]

theorem exec_encode_refused_iff {r : Refusal} :
    exec .encode s = .refused r ↔
      (s.enc.phase = .busy ∧ r = .startWhileBusy .encoder) ∨
      (s.enc.phase ≠ .busy ∧ (∃ k, s.dec.phase = .reading k) ∧ r = .startWhileInstanceBusy .encoder) := by
  simp only [exec, execEncode, startUnit_refused_iff, State.inFlight, encBusy_iff, encBusy_eq_false_iff, anyBusy_iff]
  tauto

theorem exec_decode_refused_iff {r : Refusal} :
    exec .decode s = .refused r ↔
      ((∃ k, s.dec.phase = .reading k) ∧ r = .startWhileBusy .decoder) ∨
      ((∀ k, s.dec.phase ≠ .reading k) ∧ s.enc.phase = .busy ∧ r = .startWhileInstanceBusy .decoder) := by
  simp only [exec, execDecode, startUnit_refused_iff, State.inFlight, decReading_iff, decReading_eq_false_iff,
    anyBusy_iff, ← not_exists, ne_eq]
  tauto

theorem exec_reserved3_refused_iff {r : Refusal} : exec .reserved3 s = .refused r ↔ r = .reservedOp := by
  simp [exec, execReserved3, eq_comm]

/-- Settles O7: command by command, of the cases listed only those that name the command are left. -/
theorem commandsAreRefusedExactlyWhen : Obligations.CommandsAreRefusedExactlyWhen := by
  refine fun i s => ⟨fun r => ?_, exec_ne_fault i s⟩
  cases i with
  | bytecount => simp [exec_bytecount_refused_iff]
  | encode => simp [exec_encode_refused_iff]
  | decode => simp [exec_decode_refused_iff]
  | reserved3 => simp [exec_reserved3_refused_iff]

/-! ### What an error shows -/

theorem encStatus_of_failed (h : s.enc.phase = .failed) : encStatus s = some s.enc.cause := by
  simp [encStatus, h]

theorem decStatus_of_failed (h : s.dec.phase = .failed) : decStatus s = some s.dec.cause := by
  simp [decStatus, h]

theorem outLen_of_failed (h : s.enc.phase = .failed) : outLen s = none := by
  simp [outLen, h]

theorem obufLane_of_failed (h : s.enc.phase = .failed) (k : Nat) : obufLane s k = none := by
  simp [obufLane, h]

theorem valuePort_of_failed (h : s.dec.phase = .failed) : valuePort s = none := by
  simp [valuePort, h]

theorem consumedPort_of_failed (h : s.dec.phase = .failed) : consumedPort s = none := by
  simp [consumedPort, h]

/-- Settles O41: error entry is one update of its unit, and in `Failed` the ports carry the cause only. -/
theorem errorEntryChangesPhaseAndCauseOnly : Obligations.ErrorEntryChangesPhaseAndCauseOnly := fun s =>
  ⟨raise_invalidInput s, raise_truncated s, raise_overflow s, encStatus_of_failed rfl, decStatus_of_failed rfl,
    decStatus_of_failed rfl, outLen_of_failed rfl, obufLane_of_failed rfl, valuePort_of_failed rfl,
    consumedPort_of_failed rfl, valuePort_of_failed rfl, consumedPort_of_failed rfl⟩

/-! ### The Decoder's errors -/

/-- A byte that fails is the fifth one, and the cause is Overflow (R125, R153). -/
theorem decTakeByte_failed {i : Fin 5} {b : Byte} (hf : (decTakeByte s i b).dec.phase = .failed) :
    (decTakeByte s i b).dec.cause = 3#2 ∧ i.val = 4 := by
  rcases decTakeByte_cases s i b with ⟨ho, h⟩ | ⟨-, -, h⟩ | ⟨-, -, h4, h⟩ | ⟨-, -, -, h⟩ <;> rw [h] at hf ⊢
  · exact ⟨rfl, eq_four_of_ovfdet ho⟩
  · cases hf
  · exact ⟨rfl, h4⟩
  · cases hf

/-- A group step that fails is past the buffer with Truncated, or inside it at the fifth byte with Overflow
(R152, R153). -/
theorem decGroupStep_failed {i : Fin 5} (hp : s.dec.phase = .reading i) (h : decGroupStep s = .next t)
    (hf : t.dec.phase = .failed) :
    (t.dec.cause = 2#2 ∧ s.dec.len ≤ s.dec.off + i.val) ∨
      (t.dec.cause = 3#2 ∧ i.val = 4 ∧ s.dec.off + i.val < s.dec.len) := by
  rcases decGroupStep_cases s with ⟨hr, -⟩ | ⟨j, hj, hcases⟩
  · exact absurd hp ((decReading_eq_false_iff s).mp hr i)
  · obtain rfl : i = j := by simpa [hp] using hj
    rcases hcases with ⟨hb, h'⟩ | ⟨hb, b, -, h'⟩ | ⟨-, -, h'⟩ <;> rw [h'] at h <;> cases h
    · exact .inl ⟨rfl, hb⟩
    · obtain ⟨hc, h4⟩ := decTakeByte_failed hf
      exact .inr ⟨hc, h4, hb⟩

/-- Settles O32: past the buffer the step is the Truncated entry, and inside it no failure has that cause. -/
theorem truncatedExactlyPastTheBuffer : Obligations.TruncatedExactlyPastTheBuffer := by
  intro s t i hp h
  have past (hb : s.dec.len ≤ s.dec.off + i.val) : t = s.raise .truncated := by
    rw [decGroupStep_past hp hb] at h
    cases h
    rfl
  refine ⟨⟨fun ⟨hf, hc⟩ => ?_, fun hb => ?_⟩, fun hb => ?_⟩
  · rcases decGroupStep_failed hp h hf with ⟨-, hb⟩ | ⟨hc', -⟩
    · exact hb
    · exact absurd (hc.symm.trans hc') (by decide)
  · rw [past hb]
    exact ⟨rfl, rfl⟩
  · rw [past hb, decReadIndex_reading hp, if_neg (Nat.not_lt.mpr hb)]
    exact ⟨rfl, valuePort_of_failed rfl, consumedPort_of_failed rfl, raise_truncated s⟩

/-! ### Where the errors come from -/

theorem encGroupStep_phase_ne_failed (hs : s.enc.phase ≠ .failed) : (encGroupStep s).enc.phase ≠ .failed := by
  cases hb : s.encBusy with
  | false => rwa [encGroupStep_of_not_busy hb]
  | true =>
    rw [encGroupStep_phase hb]
    split <;> nofun

/-- The one command that makes the Encoder fail is an ENCODE out of range (R151). -/
theorem exec_enc_failed {i : Instr} (h : exec i s = .next t) (hf : t.enc.phase = .failed)
    (hs : s.enc.phase ≠ .failed) : i = .encode ∧ rangechk s.ports.encIn = false ∧ t.enc.cause = 1#2 := by
  obtain ⟨-, ⟨-, rfl⟩ | ⟨-, -, rfl⟩ | ⟨hi, hr, rfl⟩ | ⟨-, rfl⟩⟩ := exec_next h
  · exact absurd hf hs
  · cases hf
  · exact ⟨hi, hr, rfl⟩
  · exact absurd hf hs

/-- No command makes the Decoder fail: a DECODE start "cannot fail" (R128). -/
theorem exec_dec_phase_ne_failed {i : Instr} (h : exec i s = .next t) (hs : s.dec.phase ≠ .failed) :
    t.dec.phase ≠ .failed := by
  obtain ⟨-, ⟨-, rfl⟩ | ⟨-, -, rfl⟩ | ⟨-, -, rfl⟩ | ⟨-, rfl⟩⟩ := exec_next h
  · exact hs
  · exact hs
  · exact hs
  · nofun

/-- Of the steps, only one that runs a command makes the Encoder fail. -/
theorem step_enc_failed (h : step s = .next t) (hf : t.enc.phase = .failed) (hs : s.enc.phase ≠ .failed) :
    ∃ op rest, s.inputs = .start op :: rest ∧ exec (decodeOp op) (s.setInputs rest) = .next t := by
  obtain ⟨l, -, rfl, -, -, -⟩ | ⟨l, hd, -, -, -⟩ | ⟨l, rfl, -, -, -⟩ | ⟨v, rest, -, rfl⟩ |
    ⟨x, rest, -, rfl⟩ | ⟨off, len, buf, rest, -, -, rfl⟩ | hstart | ⟨rest, -, rfl⟩ := step_cases h
  · exact absurd hf (encGroupStep_phase_ne_failed (s := s.setInputs l) hs)
  · obtain ⟨d, -, -, rfl⟩ := decGroupStep_setDec hd
    exact absurd hf hs
  · exact absurd hf hs
  · exact absurd hf hs
  · exact absurd hf hs
  · exact absurd hf hs
  · exact hstart
  · cases hf

/-- Of the steps, only a DECODE group step makes the Decoder fail. -/
theorem step_dec_failed (h : step s = .next t) (hf : t.dec.phase = .failed) (hs : s.dec.phase ≠ .failed) :
    ∃ l, decGroupStep (s.setInputs l) = .next t := by
  obtain ⟨l, -, rfl, -, -, -⟩ | ⟨l, hd, -, -, -⟩ | ⟨l, rfl, -, -, -⟩ | ⟨v, rest, -, rfl⟩ |
    ⟨x, rest, -, rfl⟩ | ⟨off, len, buf, rest, -, -, rfl⟩ | ⟨op, rest, -, hx⟩ | ⟨rest, -, rfl⟩ := step_cases h
  · rw [encGroupStep_dec] at hf
    exact absurd hf hs
  · exact ⟨l, hd⟩
  · exact absurd hf hs
  · exact absurd hf hs
  · exact absurd hf hs
  · exact absurd hf hs
  · exact absurd hf (exec_dec_phase_ne_failed (s := s.setInputs rest) hx hs)
  · cases hf

/-- Settles O42: the Encoder fails by a command, which is an ENCODE out of range, and the Decoder by a group step,
which was reading. -/
theorem onlyTheStatedCausesRaiseErrors : Obligations.OnlyTheStatedCausesRaiseErrors := by
  refine fun s t h => ⟨fun hf hs => ?_, fun hf hs => ?_⟩
  · obtain ⟨op, rest, hi, hx⟩ := step_enc_failed h hf hs
    obtain ⟨hop, hr, hc⟩ := exec_enc_failed (s := s.setInputs rest) hx hf hs
    obtain rfl : op = encodeOp .encode := by rw [← hop, encodeOp_decodeOp]
    exact ⟨hc, hr, rest, hi⟩
  · obtain ⟨l, hd⟩ := step_dec_failed h hf hs
    cases hr : s.decReading with
    | false =>
      rw [decGroupStep_of_not_reading (s := s.setInputs l) hr] at hd
      cases hd
      exact absurd hf hs
    | true =>
      obtain ⟨i, hp⟩ := (decReading_iff s).mp hr
      refine ⟨i, hp, ?_⟩
      rcases decGroupStep_failed (s := s.setInputs l) hp hd hf with htrunc | ⟨hc, h4, hb⟩
      · exact .inl htrunc
      · exact .inr ⟨hc, h4, h4 ▸ hb⟩

/-! ### Instances -/

/-- A step of instance `k` writes place `k` of the list and reads nothing but that place (R163). -/
theorem stepInstance_next {k : Nat} {all all' : List State} (h : stepInstance k all = .next all') :
    ∃ t, all' = all.set k t ∧ ∀ l : List State, l[k]? = all[k]? → stepInstance k l = .next (l.set k t) := by
  cases hk : all[k]? with
  | none =>
    have set_eq (l : List State) (hl : l[k]? = none) : l.set k .reset = l :=
      List.set_eq_of_length_le (List.getElem?_eq_none_iff.mp hl)
    have hall : all' = all := by simpa [stepInstance, hk] using h.symm
    exact ⟨.reset, by rw [hall, set_eq all hk], fun l hl => by simp [stepInstance, hl, set_eq l hl]⟩
  | some s =>
    cases hs : step s with
    | next t =>
      exact ⟨t, by simpa [stepInstance, hk, hs] using h.symm, fun l hl => by simp [stepInstance, hl, hs]⟩
    | fault | refused => simp [stepInstance, hk, hs] at h

/-- Settles O57: each step writes one place of the list and reads that one only, so neither sees the other. -/
theorem instancesAreIndependent : Obligations.InstancesAreIndependent := by
  refine ⟨fun k all all' h => ?_, fun j k all a b hne ha hb => ?_⟩
  · obtain ⟨t, rfl, -⟩ := stepInstance_next h
    exact ⟨List.length_set, fun j hj => List.getElem?_set_ne hj.symm⟩
  · obtain ⟨t, rfl, hj⟩ := stepInstance_next ha
    obtain ⟨u, rfl, hk⟩ := stepInstance_next hb
    refine ⟨_, hk _ (List.getElem?_set_ne hne), ?_⟩
    rw [List.set_comm t u hne]
    exact hj _ (List.getElem?_set_ne hne.symm)

end Sys2Proof.Machine
end

section
/-! PROOFS. Every operation in flight ends (70_reset_and_hazards.md R175; 60_exceptions.md R160): a block with no move
to come runs the Encoder's group steps and then the Decoder's, and each unit has at most five; O56. -/

namespace Sys2Proof.Machine

variable {s t : State}

/-! ### Runs of the machine -/

theorem run_succ_of_step {M : Host.Core} {s t : M.State} (h : M.step s = .next t) (k : Nat) :
    M.run (k + 1) s = M.run k t := by
  simp [Host.Core.run, h]

/-- A run goes on from where its first part ended. -/
theorem run_add_of_next {M : Host.Core} {j : Nat} {s t : M.State} (h : M.run j s = .next t) (k : Nat) :
    M.run (j + k) s = M.run k t := by
  induction j generalizing s with
  | zero =>
    cases h
    rw [Nat.zero_add]
  | succ j ih =>
    rw [Nat.succ_add]
    cases hs : M.step s with
    | next u =>
      rw [run_succ_of_step hs] at h ⊢
      exact ih h
    | fault | refused => simp [Host.Core.run, hs] at h

/-- A block with no move to come and no unit in flight waits for its host (R171). -/
theorem step_of_rest (hi : s.inputs = []) (h : s.anyBusy = false) : step s = .next s := by
  obtain ⟨hb, hr⟩ := (anyBusy_eq_false_iff s).mp h
  rw [step_of_no_moves hi, autoStep_of_not_encBusy hb, decGroupStep_of_not_reading hr]

/-! ### The Encoder's group steps -/

/-- While the Encoder is `Busy`, the block left alone runs its group steps. -/
theorem run_eq_encSteps (hi : s.inputs = []) {k : Nat} (hb : ∀ m < k, (encSteps m s).encBusy = true) :
    core.run k s = .next (encSteps k s) := by
  induction k generalizing s with
  | zero => rfl
  | succ k ih =>
    have hstep : step s = .next (encGroupStep s) :=
      (step_of_no_moves hi).trans (autoStep_of_encBusy (hb 0 k.succ_pos))
    rw [run_succ_of_step (M := core) hstep]
    exact ih ((encGroupStep_inputs s).trans hi) fun m hm => hb (m + 1) (Nat.succ_lt_succ hm)

/-- Group steps of the Encoder change the Encoder only. -/
theorem encSteps_setEnc (k : Nat) (s : State) : ∃ e, encSteps k s = s.setEnc e :=
  encSteps_keeps (P := fun u => ∃ e, u = s.setEnc e)
    (fun u ⟨e, he⟩ => ⟨(encGroupStep u).enc, by rw [encGroupStep_eq_setEnc u, he]; rfl⟩) ⟨s.enc, rfl⟩ k

/-- An ENCODE in flight has `enc_n - enc_i` group steps left, which the block left alone runs. -/
theorem run_ends_encode (hs : s.EncInv) (hi : s.inputs = []) :
    ∃ j ≤ 5, (s.encBusy = false → j = 0) ∧ core.run j s = .next (encSteps j s) ∧
      (encSteps j s).encBusy = false := by
  cases hb : s.encBusy with
  | false => exact ⟨0, by decide, fun _ => rfl, rfl, hb⟩
  | true =>
    have hp := (encBusy_iff s).mp hb
    obtain ⟨-, hn5, hin, -⟩ := hs.busy hp
    have hphase {m : Nat} (hm : m ≤ s.enc.n.toNat - s.enc.i.toNat) := encSteps_phase (k := m) hp hin (by omega)
    refine ⟨s.enc.n.toNat - s.enc.i.toNat, by omega, nofun, run_eq_encSteps hi fun m hm => ?_, ?_⟩
    · rw [encBusy_iff, hphase hm.le, if_neg (by omega)]
    · rw [encBusy_eq_false_iff, hphase le_rfl, if_pos (by omega)]
      nofun

/-! ### The Decoder's group steps -/

/-- With no ENCODE in flight, the block left alone runs the Decoder's group steps. -/
theorem run_eq_decSteps (hi : s.inputs = []) (hb : s.encBusy = false) {k : Nat} (h : decSteps k s = .next t) :
    core.run k s = .next t := by
  induction k generalizing s with
  | zero => exact h
  | succ k ih =>
    obtain ⟨u, hu, hrest⟩ := decSteps_succ_next h
    have hstep : step s = .next u := by rw [step_of_no_moves hi, autoStep_of_not_encBusy hb, hu]
    obtain ⟨d, -, -, rfl⟩ := decGroupStep_setDec hu
    rw [run_succ_of_step (M := core) hstep]
    exact ih hi hb hrest

/-- A byte space that supplies `len` bytes holds a sequence of that length (R41). -/
theorem exists_ibufHolds {m : Memory} {len : Nat} (h : memSupplied m len) :
    ∃ buf : List Byte, buf.length = len ∧ ibufHolds m buf := by
  refine ⟨List.ofFn fun a : Fin len => (memRead m a).get (h a a.isLt), List.length_ofFn, fun a ha => ?_⟩
  rw [List.length_ofFn] at ha
  simp [ha]

/-- Under the invariant a DECODE in flight decodes some sequence of bytes, the one its host supplied. -/
theorem State.Inv.decodesAt (hs : s.Inv) {i : Fin 5} (hp : s.dec.phase = .reading i) :
    ∃ buf, s.DecodesAt buf s.dec.off i := by
  obtain ⟨hgroup, -⟩ := hs.dec.reading i hp
  obtain ⟨-, hlen⟩ := hs.host.stable ((decReading_iff s).mpr ⟨i, hp⟩)
  obtain ⟨buf, hbuf, hholds⟩ := exists_ibufHolds hs.host.supplied
  have hidx : s.dec.group = BitVec.ofNat 3 i.val := BitVec.eq_of_toNat_eq (by rw [hgroup, BitVec.toNat_ofNat]; omega)
  exact ⟨buf, hp, hidx, rfl, hlen.trans hbuf.symm, hholds⟩

/-- A DECODE in flight ends within the group steps of the groups left. -/
theorem decSteps_ends_decode (hs : s.Inv) :
    ∃ k ≤ 5, (s.decReading = false → k = 0) ∧ ∃ t, decSteps k s = .next t ∧ t.decReading = false := by
  cases hr : s.decReading with
  | false => exact ⟨0, by decide, fun _ => rfl, s, rfl, hr⟩
  | true =>
    obtain ⟨i, hp⟩ := (decReading_iff s).mp hr
    obtain ⟨buf, hat⟩ := hs.decodesAt hp
    obtain ⟨t, ht, hres⟩ := hat.decSteps_result (k := 5 - i.val) (by omega)
    exact ⟨5 - i.val, by omega, nofun, t, ht, decReading_of_decResult hres⟩

/-! ### The block at rest -/

/-- Settles O56: the block left alone runs the Encoder's group steps to their end, then the Decoder's, which the
Encoder's have left as it was, and with no unit in flight it rests. -/
theorem operationsEndWithinFiveGroupStepsEach : Obligations.OperationsEndWithinFiveGroupStepsEach := by
  intro s hs
  have h0 : (s.setInputs []).Inv := hs.setInputs nofun
  obtain ⟨j, hj, hj0, hrun, hb⟩ := run_ends_encode h0.enc rfl
  have hinv : (encSteps j (s.setInputs [])).Inv := encSteps_keeps (P := State.Inv) (fun _ => encGroupStep_inv) h0 j
  obtain ⟨k, hk, hk0, t, hdec, hr⟩ := decSteps_ends_decode hinv
  obtain ⟨e, he⟩ := encSteps_setEnc j (s.setInputs [])
  have hi : (encSteps j (s.setInputs [])).inputs = [] := by rw [he]; rfl
  have hreading : (encSteps j (s.setInputs [])).decReading = s.decReading := by rw [he]; rfl
  have hend : core.run (j + k) (s.setInputs []) = .next t :=
    (run_add_of_next (M := core) hrun k).trans (run_eq_decSteps hi hb hdec)
  obtain ⟨d, rfl⟩ := decSteps_setDec hdec
  have hfree := (anyBusy_eq_false_iff _).mpr ⟨(setDec_encBusy _ d).trans hb, hr⟩
  exact ⟨j, k, _, hj, hk, hj0, fun h => hk0 (hreading.trans h), hend, hdec, hfree, step_of_rest hi hfree⟩

end Sys2Proof.Machine
end
